-- ==== Sys2Proof/Word.lean ====
section
/-! DEFINITION. The word types of the block: bytes, 32-bit words and byte strings (00_scope.md R9, R10). -/

namespace Sys2Proof

/-- A byte, an integer in [0, 255] (00_scope.md R10). -/
abbrev Byte := BitVec 8

/-- A 32-bit word: a command word, a register read value, a word of SHA-256 (00_scope.md R9, R11). -/
abbrev Word := BitVec 32

/-- A byte string: a finite sequence of bytes, byte 0 first (00_scope.md R10). -/
abbrev Bytes := List Byte

/-- A 12-bit byte offset in the register window (20_memory.md R50). -/
abbrev Offset := BitVec 12

/-- A byte string of exactly 32 bytes: `K`, `V` and every HMAC output (00_scope.md R6 `OUTLEN`). -/
abbrev Digest := Vector Byte 32

end Sys2Proof
end

