-- ==== Sys2Proof/Syntax.lean ====
section
/-! DEFINITION. The commands of the block, one constructor per row of spec/opcode_table.json. -/

namespace Sys2Proof

/-- A command, as `decode` of 30_encoding.md R86 names it. The operands are plain numbers, because every check on them is
over the integers (00_scope.md R11); the ranges their fields admit are `Instr.wellFormed` (log entry 11). -/
inductive Instr where
  /-- INSTANTIATE(S, E, P): requested strength, entropy length and personalization length, both in bytes
  (41_drbg_commands.md R130). -/
  | instantiate (strength elen plen : Nat)
  /-- RESEED(E): entropy length in bytes (41_drbg_commands.md R150). -/
  | reseed (elen : Nat)
  /-- GENERATE(S, L): requested strength, and output length in bytes (41_drbg_commands.md R160). -/
  | generate (strength olen : Nat)
  deriving DecidableEq, Repr

end Sys2Proof
end

