-- ==== Sys2Proof/WellFormed.lean ====
section
/-! DEFINITION. Which commands have a word: every operand fits its field (30_encoding.md R83, R90). -/

namespace Sys2Proof

/-- The strength fits the 9-bit field S: 0 to 511 (30_encoding.md R83). -/
def strengthFits (s : Nat) : Bool := s < 512

/-- An entropy or personalization length fits its 8-bit field: 0 to 255 (30_encoding.md R83). -/
def seedLengthFits (n : Nat) : Bool := n < 256

/-- An output length fits the 16-bit field OLEN: 0 to 65535 (30_encoding.md R83). -/
def outputLengthFits (n : Nat) : Bool := n < 65536

/-- The assembler's only check: no operand is too wide for its field (30_encoding.md R90). The source's limits are the
engine's to check (R88), so they are not here. -/
def Instr.wellFormed : Instr → Bool
  | .instantiate s e p => strengthFits s && seedLengthFits e && seedLengthFits p
  | .reseed e => seedLengthFits e
  | .generate s l => strengthFits s && outputLengthFits l

end Sys2Proof
end

