-- ==== Sys2Proof/Decode.lean ====
section
/-! DEFINITION. Decoding of a command word (30_encoding.md R86), total on all 32-bit words, and the encoder (R89). -/

namespace Sys2Proof

/-- OP = w[3:0] (30_encoding.md R81, R82). -/
def opField (w : Word) : Nat := (w.extractLsb' 0 4).toNat

/-- S = w[12:4] (30_encoding.md R83). -/
def strengthField (w : Word) : Nat := (w.extractLsb' 4 9).toNat

/-- ELEN = w[20:13] (30_encoding.md R83). -/
def elenField (w : Word) : Nat := (w.extractLsb' 13 8).toNat

/-- PLEN = w[28:21] (30_encoding.md R83). -/
def plenField (w : Word) : Nat := (w.extractLsb' 21 8).toNat

/-- OLEN = w[28:13] (30_encoding.md R83). -/
def olenField (w : Word) : Nat := (w.extractLsb' 13 16).toNat

/-- RSV = w[31:29] (30_encoding.md R81, R82). -/
def rsvField (w : Word) : Nat := (w.extractLsb' 29 3).toNat

/-- Why a word is a reserved encoding: the three cases of 30_encoding.md R87. The block reports all three by the one code
ILLEGAL_COMMAND; the names are the model's (log entry 19). -/
inductive IllegalWord where
  /-- OP is 0x0 or 0x4 to 0xF. -/
  | reservedOp
  /-- RSV is not 0. -/
  | reservedBits
  /-- A RESEED word whose S or PLEN is not 0. -/
  | reseedOperands
  deriving DecidableEq, Repr

/-- The result of decoding: a command, or ILLEGAL with the reason (30_encoding.md R86). -/
inductive Decoded where
  | command (i : Instr)
  | illegal (why : IllegalWord)
  deriving DecidableEq, Repr

/-- The name of a reserved encoding (30_encoding.md R87). -/
def illegalReason (w : Word) : IllegalWord :=
  if opField w ∉ [1, 2, 3] then .reservedOp
  else if rsvField w ≠ 0 then .reservedBits
  else .reseedOperands

/-- `decode` of 30_encoding.md R86, line by line. -/
def decode (w : Word) : Decoded :=
  if opField w = 1 ∧ rsvField w = 0 then
    .command (.instantiate (strengthField w) (elenField w) (plenField w))
  else if opField w = 2 ∧ rsvField w = 0 ∧ strengthField w = 0 ∧ plenField w = 0 then
    .command (.reseed (elenField w))
  else if opField w = 3 ∧ rsvField w = 0 then
    .command (.generate (strengthField w) (olenField w))
  else .illegal (illegalReason w)

/-- The command a decoding gives, where it gives one. -/
def Decoded.command? : Decoded → Option Instr
  | .command i => some i
  | .illegal _ => none

/-- `enc_E(op, S, E, P) = op | S<<4 | E<<13 | P<<21` (30_encoding.md R89). -/
def encE (op s e p : Nat) : Word := BitVec.ofNat 32 (op ||| s <<< 4 ||| e <<< 13 ||| p <<< 21)

/-- `enc_G(op, S, L) = op | S<<4 | L<<13` (30_encoding.md R89). -/
def encG (op s l : Nat) : Word := BitVec.ofNat 32 (op ||| s <<< 4 ||| l <<< 13)

/-- The word of a well-formed command (30_encoding.md R85, R89). -/
def encode : Instr → Word
  | .instantiate s e p => encE 1 s e p
  | .reseed e => encE 2 0 e 0
  | .generate s l => encG 3 s l

/-- The command word whose low `nbits` bits are those of `w` and whose other bits are 0. A command is one 32-bit word
(30_encoding.md R80), so this is the whole layout. -/
def tableWord (nbits w : Nat) : Word := BitVec.ofNat 32 (w % 2 ^ nbits)

/-- The command the decoder reads from a row of the opcode table. -/
def decodeTableWord (nbits w : Nat) : Option Instr := (decode (tableWord nbits w)).command?

end Sys2Proof
end

