-- ==== Sys2Proof/Config.lean ====
section
/-! DEFINITION. The parameters the source fixes (00_scope.md R6), those the spec fixes (R7), and the one free value. -/

namespace Sys2Proof.Config

/-- `TIERS`, the legal values of `strength` (00_scope.md R6). -/
def tiers : List Nat := [112, 128, 192, 256]

/-- `MAX_STRENGTH`: INSTANTIATE fails above it (00_scope.md R6). -/
@[simp] abbrev maxStrength : Nat := 256

/-- `MAX_PERS_BITS`: the personalization string's upper bound in bits (00_scope.md R6). -/
@[simp] abbrev maxPersBits : Nat := 256

/-- `MAX_ENTROPY_BITS`: the upper bound on entropy at INSTANTIATE and RESEED, in bits (00_scope.md R6). -/
@[simp] abbrev maxEntropyBits : Nat := 1000

/-- `MAX_REQUEST_BITS`: GENERATE fails above it (00_scope.md R6). -/
@[simp] abbrev maxRequestBits : Nat := 7500

/-- `RESEED_CEILING`: GENERATE is refused once `ctr` reaches it (00_scope.md R6). -/
@[simp] abbrev reseedCeiling : Nat := 10000

/-- The assembler's default strength, for INSTANTIATE and for GENERATE (00_scope.md R6). -/
@[simp] abbrev defaultStrength : Nat := 256

/-- The size of the register window in bytes (00_scope.md R7). -/
@[simp] abbrev windowSize : Nat := 4096

/-- `IN_BUF_SIZE` (00_scope.md R7). -/
@[simp] abbrev inBufSize : Nat := 256

/-- `OUT_BUF_SIZE` (00_scope.md R7). -/
@[simp] abbrev outBufSize : Nat := 1024

/-- The free value: what the n-th OUT_BUF read while `busy = 1` of the instance at a place returns, before it is cut to the
access's width: `busyRead place n` (20_memory.md R53 "a draw: any value, unconstrained"). It has no body, so no proof can use
a value of it. That a draw is a function of these two numbers is the model's choice (DESIGN CHOICE, log entry 6): the counter
`State.draws` makes each draw of an instance a new one, and the place, `State.place`, gives each instance draws of its own,
since instances share nothing (60_exceptions.md R195). -/
opaque busyRead (place n : Nat) : Word

end Sys2Proof.Config
end

