-- ==== Sys2Proof/Machine/State.lean ====
section
/-! DEFINITION. The state record of 10_state.md R20, the host side that the step reads, the faults, and reset (R200). -/

namespace Sys2Proof.Machine

/-- A byte buffer of the window, IN_BUF or OUT_BUF: its bytes that are not 0x00, by index, indexes rising. An index that is
not listed holds 0x00, which is what reset leaves everywhere (70_reset_and_hazards.md R200; log entry 9). -/
abbrev Memory := List Host.Cell

/-- The seven result codes of `STATUS.ERR` (60_exceptions.md R180); codes 7 to 15 are never produced. -/
inductive ResultCode where
  | ok
  | configuration
  | entropyLength
  | request
  | reseedRequired
  | illegalCommand
  | notInstantiated
  deriving DecidableEq, Repr

/-- One host access to the window: an offset, a width in bytes, and for a write the value (20_memory.md R56, R57). A value
is held in 32 bits; a narrower write uses its low bits only (log entry 10). -/
inductive Access where
  | read (a : Offset) (n : Nat)
  | write (a : Offset) (n : Nat) (v : Word)
  deriving DecidableEq, Repr

/-- One event of the total order of 20_memory.md R65, or a reset (70_reset_and_hazards.md R202): log entry 1. -/
inductive Event where
  /-- The host performs one access. -/
  | access (acc : Access)
  /-- The engine's turn: its step runs here if it is enabled (60_exceptions.md R185). -/
  | engine
  /-- The host resets the block. -/
  | reset
  deriving DecidableEq, Repr

/-- What one host read returned: the access and its value, zero-extended to 32 bits (20_memory.md R56; log entry 7). -/
structure Reply where
  offset : Offset
  width  : Nat
  value  : Word
  deriving DecidableEq, Repr

/-- Why an access is refused with a bus error: the conditions of 20_memory.md R55. The seventh, crossing from one region
into another, is excluded by the second and the third, as R55 says. Which name is reported when two hold is the model's
choice (log entry 5). -/
inductive BusError where
  /-- R55.1: the width is not 1, 2 or 4 bytes. -/
  | badWidth
  /-- R55.2: the offset is not a multiple of the width. -/
  | misaligned
  /-- R55.3: the access falls in a reserved range. -/
  | reservedRange
  /-- R55.4: CMD, STATUS or OUT_COUNT with a width other than 4. -/
  | registerWidth
  /-- R55.5: a write to OUT_COUNT or OUT_BUF. -/
  | readOnly
  /-- R55.6: a write to IN_BUF while `busy = 1`. -/
  | inBufBusy
  deriving DecidableEq, Repr

/-- What stops the machine. -/
inductive Fault where
  /-- Raised by a host access that 20_memory.md R55 refuses: a fault of the host program, naming the access
  (60_exceptions.md R187). The block itself would go on, unchanged. Safe: the model stops where the host's platform decides
  (log entry 4). -/
  | busError (acc : Access) (why : BusError)
  deriving DecidableEq, Repr

/-- Why an instruction has no meaning. -/
inductive Refusal where
  /-- Raised by an arm of `exec` whose instruction is not modelled; no arm raises it. Safe. -/
  | notModelled (mnemonic : String)
  deriving DecidableEq, Repr

/-- The state: the twelve fields of 10_state.md R20 and four of the model's own. -/
structure State where
  /-- The HMAC key (R21). -/
  K        : Digest
  /-- The chaining value (R22). -/
  V        : Digest
  /-- The source's reseed_counter (R23). -/
  ctr      : BitVec 16
  /-- The resolved strength, as a plain number (R24). -/
  strength : BitVec 9
  /-- Instantiated (R26). -/
  inst     : Bool
  /-- A command is pending (R28). -/
  busy     : Bool
  /-- The last accepted command word; the pending command while `busy` (R30). -/
  cmd      : Word
  /-- The result code of the last completed command (R29). -/
  err      : ResultCode
  /-- Sticky: a CMD write was dropped (R31). -/
  cmdLost  : Bool
  /-- Valid output bytes at the start of OUT_BUF (R32). -/
  outCount : BitVec 16
  /-- IN_BUF, 256 bytes (R35). -/
  inBuf    : Memory
  /-- OUT_BUF, 1024 bytes (R36). -/
  outBuf   : Memory
  /-- The model's own: the events still to come, in their total order (20_memory.md R65; log entry 1). -/
  events   : List Event
  /-- The model's own: what the host's reads returned, newest first (log entry 7). -/
  replies  : List Reply
  /-- The model's own: how many draws have been taken (20_memory.md R61; log entry 6). -/
  draws    : Nat
  /-- The model's own: which instance of a system the block is, 0 for a block alone (60_exceptions.md R195). It only selects
  the instance's own draws (log entries 6, 12). -/
  place    : Nat
  deriving DecidableEq, Repr

/-- The block right after reset: the table of 70_reset_and_hazards.md R200. The last four fields are the model's, at the
values log entry 8 names. -/
def State.reset : State where
  K        := Vector.replicate 32 0x00
  V        := Vector.replicate 32 0x01
  ctr      := 1
  strength := 0
  inst     := false
  busy     := false
  cmd      := 0
  err      := .ok
  cmdLost  := false
  outCount := 0
  inBuf    := []
  outBuf   := []
  events   := []
  replies  := []
  draws    := 0
  place    := 0

end Sys2Proof.Machine
end

