-- ==== Sys2Proof/Machine/Ops.lean ====
section
/-! DEFINITION. The named operations over the buffers and the registers, and the completion of a command (60_exceptions.md
R184), which is this block's one way of raising an error. -/

namespace Sys2Proof.Machine

/-! ## The buffers -/

/-- What an index that is not listed holds: 0x00, as reset leaves every byte (70_reset_and_hazards.md R200; log entry 9). -/
def Memory.unlisted : Byte := 0x00

/-- The byte at index `a`. -/
def Memory.read : Memory → Nat → Byte
  | [], _ => Memory.unlisted
  | (k, v) :: m, a => if k = a then v else Memory.read m a

/-- The listing with index `a` taken out. -/
def Memory.erase (m : Memory) (a : Nat) : Memory := m.filter fun c => c.1 ≠ a

/-- The listing with the byte `v` at index `a`, in its place by index. -/
def Memory.insert : Memory → Nat → Byte → Memory
  | [], a, v => [(a, v)]
  | (k, w) :: m, a, v =>
    if a < k then (a, v) :: (k, w) :: m
    else if a = k then (a, v) :: m
    else (k, w) :: Memory.insert m a v

/-- Writing one byte; writing what an unlisted index holds takes the index out, so the form stays canonical. -/
def Memory.write (m : Memory) (a : Nat) (v : Byte) : Memory :=
  if v = Memory.unlisted then Memory.erase m a else Memory.insert m a v

/-- The bytes `bs` written from index `a` up, one byte at a time (20_memory.md R73). -/
def Memory.writeBytes (m : Memory) (a : Nat) : Bytes → Memory
  | [] => m
  | b :: bs => Memory.writeBytes (Memory.write m a b) (a + 1) bs

/-- The slice `m[i ..< i + n]` (00_scope.md R10), read one byte at a time (20_memory.md R73). -/
def Memory.slice (m : Memory) (i n : Nat) : Bytes := (List.range' i n).map (Memory.read m)

/-- The canonical form of a buffer of `size` bytes: indexes strictly rising and below `size`, no byte listed that equals
what an unlisted index holds. -/
def Memory.wf (size : Nat) : Memory → Bool
  | [] => true
  | [(k, v)] => k < size && v ≠ Memory.unlisted
  | (k, v) :: (k', v') :: m => k < k' && v ≠ Memory.unlisted && Memory.wf size ((k', v') :: m)

/-! ## The registers -/

/-- Writes `K` and `V` together: one pass of UPDATE ends so (41_drbg_commands.md R140). -/
def State.withKV (s : State) (k v : Digest) : State := { s with K := k, V := v }

/-- Writes `V` alone: the output loop of GENERATE (41_drbg_commands.md R164). -/
def State.withV (s : State) (v : Digest) : State := { s with V := v }

/-- Writes `ctr` (10_state.md R23). -/
def State.withCtr (s : State) (c : BitVec 16) : State := { s with ctr := c }

/-- The initial load of INSTANTIATE: `K <- 0x00^32; V <- 0x01^32; ctr <- 1; strength <- r` (41_drbg_commands.md R135). -/
def State.construct (s : State) (r : BitVec 9) : State :=
  { s with K := Vector.replicate 32 0x00, V := Vector.replicate 32 0x01, ctr := 1, strength := r }

/-- `inst <- 1` (41_drbg_commands.md R135). -/
def State.setInst (s : State) : State := { s with inst := true }

/-- The delivery of GENERATE: `out_buf[i] <- out[i]` for every i, then `out_count <- L; err <- OK`
(41_drbg_commands.md R166). -/
def State.deliver (s : State) (out : Bytes) : State :=
  { s with outBuf := Memory.writeBytes s.outBuf 0 out, outCount := BitVec.ofNat 16 out.length, err := .ok }

/-! ## Completion -/

/-- `complete(code)`: `err <- code; out_count <- 0` and nothing else (60_exceptions.md R184). Every error a command raises
ends in this one operation, and so does every success but GENERATE's. It saves no pc and no status and goes nowhere: there
is no control flow (R186), and no return from it (R190). -/
def State.complete (s : State) (code : ResultCode) : State := { s with err := code, outCount := 0 }

/-- The end of the engine step: `busy <- 0` (60_exceptions.md R185). -/
def State.clearBusy (s : State) : State := { s with busy := false }

/-- The end of an engine step whatever its outcome. -/
def endCommand : Host.Outcome State Fault Refusal → Host.Outcome State Fault Refusal
  | .next t => .next t.clearBusy
  | .fault r => .fault r
  | .refused r => .refused r

/-! ## Issue -/

/-- An accepted CMD write: `cmd <- w; busy <- 1` and nothing else (20_memory.md R60). -/
def State.accept (s : State) (w : Word) : State := { s with cmd := w, busy := true }

/-- A dropped CMD write: `cmd_lost <- 1` and nothing else (20_memory.md R61). -/
def State.drop (s : State) : State := { s with cmdLost := true }

/-- `issue(v)`: what a CMD write does (20_memory.md R60, R61). -/
def State.issue (s : State) (w : Word) : State := if s.busy then s.drop else s.accept w

/-! ## The host side -/

/-- The block with the events still to come replaced: how the step moves past an event. -/
def State.withEvents (s : State) (es : List Event) : State := { s with events := es }

/-- Records what a host read returned (20_memory.md R56; log entry 7). -/
def State.reply (s : State) (a : Offset) (n : Nat) (v : Word) : State :=
  { s with replies := ⟨a, n, v⟩ :: s.replies }

/-- Moves on to the next draw (20_memory.md R61; log entry 6). -/
def State.nextDraw (s : State) : State := { s with draws := s.draws + 1 }

/-- Reset: the whole record of 10_state.md R20 takes the values of 70_reset_and_hazards.md R200 (R202). The host's events
and replies, the count of draws and the block's place are not the block's record, so they stay (log entry 8). -/
def State.resetBlock (s : State) : State :=
  { State.reset with events := s.events, replies := s.replies, draws := s.draws, place := s.place }

/-- The block as the instance at place `j` of a system (60_exceptions.md R195; log entry 12). -/
def State.atPlace (s : State) (j : Nat) : State := { s with place := j }

end Sys2Proof.Machine
end

