-- ==== Sys2Proof/Machine/Flags.lean ====
section
/-! DEFINITION. The status bits: the result codes' numbers, and reading and writing STATUS and OUT_COUNT (10_state.md R33,
R34). -/

namespace Sys2Proof.Machine

/-- The 4-bit code of a result (60_exceptions.md R180). -/
def ResultCode.code : ResultCode → BitVec 4
  | .ok => 0
  | .configuration => 1
  | .entropyLength => 2
  | .request => 3
  | .reseedRequired => 4
  | .illegalCommand => 5
  | .notInstantiated => 6

/-- A flag as a 32-bit number. -/
def flag (b : Bool) : Word := if b then 1 else 0

/-- The STATUS read value, `zext_32(err) << 4 | cmd_lost << 2 | inst << 1 | busy` (10_state.md R34). -/
def State.statusValue (s : State) : Word :=
  (s.err.code.setWidth 32 <<< 4) ||| (flag s.cmdLost <<< 2) ||| (flag s.inst <<< 1) ||| flag s.busy

/-- A STATUS write of `w`: bit 2 set clears `cmd_lost`; every other bit is ignored (10_state.md R34). -/
def State.writeStatus (s : State) (w : Word) : State :=
  if w.getLsbD 2 then { s with cmdLost := false } else s

/-- The OUT_COUNT read value, `zext_32(out_count)` (20_memory.md R56). -/
def State.outCountValue (s : State) : Word := s.outCount.setWidth 32

end Sys2Proof.Machine
end

