-- ==== Sys2Proof/Machine/Operands.lean ====
section
/-! DEFINITION. The operand forms: strength resolution (00_scope.md R15), the IN_BUF slices (30_encoding.md R83) and the
byte lanes of a host access (20_memory.md R58). -/

namespace Sys2Proof.Machine

/-- `resolve(s)`: a requested strength rounded up to a tier (00_scope.md R15). -/
def resolve (s : Nat) : Nat :=
  if s ≤ 112 then 112
  else if s ≤ 128 then 128
  else if s ≤ 192 then 192
  else 256

/-- `bitlen` of a string of `n` bytes (00_scope.md R10). -/
abbrev bitlen (n : Nat) : Nat := 8 * n

/-- `entropy = in_buf[0 ..< E]` (30_encoding.md R83). -/
def entropyOf (e : Nat) (s : State) : Bytes := Memory.slice s.inBuf 0 e

/-- `personalizer = in_buf[E ..< E+P]` (30_encoding.md R83). -/
def personalizerOf (e p : Nat) (s : State) : Bytes := Memory.slice s.inBuf e p

/-- INSTANTIATE's seed, `entropy ‖ personalizer` (41_drbg_commands.md R135). -/
def seedOf (e p : Nat) (s : State) : Bytes := entropyOf e s ++ personalizerOf e p s

/-- The value of a wide read: the byte at the lowest offset is bits [7:0] (20_memory.md R58). -/
def lanesValue : Bytes → Word
  | [] => 0
  | b :: bs => b.setWidth 32 ||| (lanesValue bs <<< 8)

/-- The bytes of a wide write, the lowest offset first: byte k is `v[8k+7:8k]` (20_memory.md R57). -/
def laneBytes (n : Nat) (v : Word) : Bytes := (List.range n).map fun k => v.extractLsb' (8 * k) 8

/-- A value cut to an access's n×8 bits (20_memory.md R56). -/
def cutTo (n : Nat) (v : Word) : Word := (v.setWidth (8 * n)).setWidth 32

end Sys2Proof.Machine
end

