-- ==== Sys2Proof/Machine/Bus.lean ====
section
/-! DEFINITION. Host accesses to the register window: the map (20_memory.md R51), the bus errors (R55), MemRead (R56) and
MemWrite (R57). -/

namespace Sys2Proof.Machine

/-- The regions of the window (20_memory.md R51). -/
inductive Region where
  | cmd
  | status
  | outCount
  | inBuf
  | outBuf
  | reserved
  deriving DecidableEq, Repr

/-- The region an offset lies in: the map of 20_memory.md R51. -/
def regionOf (a : Nat) : Region :=
  if a < 0x004 then .cmd
  else if a < 0x008 then .status
  else if a < 0x00C then .outCount
  else if a < 0x100 then .reserved
  else if a < 0x200 then .inBuf
  else if a < 0x400 then .reserved
  else if a < 0x800 then .outBuf
  else .reserved

/-- The index in IN_BUF of a window offset (20_memory.md R52). -/
def inBufIndex (a : Offset) : Nat := a.toNat - 0x100

/-- The index in OUT_BUF of a window offset (20_memory.md R53). -/
def outBufIndex (a : Offset) : Nat := a.toNat - 0x400

/-- The refusals that reads and writes share: R55.1 to R55.4. -/
def refusedShape (a : Offset) (n : Nat) : Option BusError :=
  if n ∉ [1, 2, 4] then some .badWidth
  else if a.toNat % n ≠ 0 then some .misaligned
  else
    match regionOf a.toNat with
    | .reserved => some .reservedRange
    | .cmd => if n ≠ 4 then some .registerWidth else none
    | .status => if n ≠ 4 then some .registerWidth else none
    | .outCount => if n ≠ 4 then some .registerWidth else none
    | .inBuf => none
    | .outBuf => none

/-- The refusals of a write alone: R55.5 and R55.6. -/
def refusedWrite (busy : Bool) (a : Offset) : Option BusError :=
  match regionOf a.toNat with
  | .outCount => some .readOnly
  | .outBuf => some .readOnly
  | .inBuf => if busy then some .inBufBusy else none
  | .cmd => none
  | .status => none
  | .reserved => none

/-- Whether, and why, the block refuses an access with a bus error (20_memory.md R55). -/
def refused (s : State) : Access → Option BusError
  | .read a n => refusedShape a n
  | .write a n _ => (refusedShape a n).or (refusedWrite s.busy a)

/-- The value a read that is not refused returns (20_memory.md R56). A reserved range is always refused, so its value is
never used. The draw of a busy OUT_BUF read is a free value of the instance's own (log entry 6). -/
def readValue (s : State) (a : Offset) (n : Nat) : Word :=
  match regionOf a.toNat with
  | .cmd => s.cmd
  | .status => s.statusValue
  | .outCount => s.outCountValue
  | .inBuf => lanesValue (Memory.slice s.inBuf (inBufIndex a) n)
  | .outBuf =>
    if s.busy then cutTo n (Config.busyRead s.place s.draws)
    else lanesValue (Memory.slice s.outBuf (outBufIndex a) n)
  | .reserved => 0

/-- Whether a read takes a draw: an OUT_BUF read while `busy = 1` (20_memory.md R61). -/
def readDraws (s : State) (a : Offset) : Bool := s.busy && regionOf a.toNat = .outBuf

/-- `MemRead(a, n)` when it is not refused: the host receives the value, and no field of the block changes
(20_memory.md R56). -/
def memRead (a : Offset) (n : Nat) (s : State) : State :=
  let t := s.reply a n (readValue s a n)
  if readDraws s a then t.nextDraw else t

/-- `MemWrite(a, n, v)` when it is not refused (20_memory.md R57). -/
def memWrite (a : Offset) (n : Nat) (v : Word) (s : State) : State :=
  match regionOf a.toNat with
  | .cmd => s.issue v
  | .status => s.writeStatus v
  | .inBuf => { s with inBuf := Memory.writeBytes s.inBuf (inBufIndex a) (laneBytes n v) }
  | .outCount => s
  | .outBuf => s
  | .reserved => s

/-- An access that is not refused. -/
def perform : Access → State → State
  | .read a n, s => memRead a n s
  | .write a n v, s => memWrite a n v s

/-- One host access: a bus error if the block refuses it, a fault of the host program (60_exceptions.md R187); otherwise
its effect, as one indivisible event (20_memory.md R62). -/
def hostAccess (acc : Access) (s : State) : Host.Outcome State Fault Refusal :=
  match refused s acc with
  | some why => .fault (.busError acc why)
  | none => .next (perform acc s)

end Sys2Proof.Machine
end

