-- ==== Sys2Proof/Machine/Sha256.lean ====
section
/-! DEFINITION. SHA-256, as 40_hmac_core.md R102 to R108 give it (log entry 15). -/

namespace Sys2Proof.Machine

/-! ## Word operations (R102) -/

/-- `rotr_n(x)`. -/
def rotr (n : Nat) (x : Word) : Word := (x >>> n) ||| (x <<< (32 - n))

/-- The shape of all four sigmas: two rotations of the word and a third term, xored. -/
def sigma (m n : Nat) (third : Word → Word) (x : Word) : Word := rotr m x ^^^ rotr n x ^^^ third x

/-- `Σ0`: rotations by 2, 13 and 22. -/
def bigSigma0 : Word → Word := sigma 2 13 (rotr 22)

/-- `Σ1`: rotations by 6, 11 and 25. -/
def bigSigma1 : Word → Word := sigma 6 11 (rotr 25)

/-- `σ0`: rotations by 7 and 18, and `shr_3`. -/
def smallSigma0 : Word → Word := sigma 7 18 (· >>> 3)

/-- `σ1`: rotations by 17 and 19, and `shr_10`. -/
def smallSigma1 : Word → Word := sigma 17 19 (· >>> 10)

/-- `Ch(x,y,z)`. -/
def ch (x y z : Word) : Word := (x &&& y) ^^^ (~~~x &&& z)

/-- `Maj(x,y,z)`. -/
def maj (x y z : Word) : Word := (x &&& y) ^^^ (x &&& z) ^^^ (y &&& z)

/-! ## Constants (R103, R104) -/

/-- A row of R103's table, its eight words written as one number in the table's order, the first word on top. -/
def tableRow (row : Nat) : List Word := (List.range 8).map fun i => BitVec.ofNat 32 (row >>> (32 * (7 - i)))

/-- The 64 round constants `Kc[0..63]`, row by row (R103). -/
def roundConstants : List Word :=
  tableRow 0x428a2f98_71374491_b5c0fbcf_e9b5dba5_3956c25b_59f111f1_923f82a4_ab1c5ed5 ++
  tableRow 0xd807aa98_12835b01_243185be_550c7dc3_72be5d74_80deb1fe_9bdc06a7_c19bf174 ++
  tableRow 0xe49b69c1_efbe4786_0fc19dc6_240ca1cc_2de92c6f_4a7484aa_5cb0a9dc_76f988da ++
  tableRow 0x983e5152_a831c66d_b00327c8_bf597fc7_c6e00bf3_d5a79147_06ca6351_14292967 ++
  tableRow 0x27b70a85_2e1b2138_4d2c6dfc_53380d13_650a7354_766a0abb_81c2c92e_92722c85 ++
  tableRow 0xa2bfe8a1_a81a664b_c24b8b70_c76c51a3_d192e819_d6990624_f40e3585_106aa070 ++
  tableRow 0x19a4c116_1e376c08_2748774c_34b0bcb5_391c0cb3_4ed8aa4a_5b9cca4f_682e6ff3 ++
  tableRow 0x748f82ee_78a5636f_84c87814_8cc70208_90befffa_a4506ceb_bef9a3f7_c67178f2

/-- Eight words: a hash value `H[0..7]`, or the working variables a to h (R104, R107). -/
structure HashWords where
  a : Word
  b : Word
  c : Word
  d : Word
  e : Word
  f : Word
  g : Word
  h : Word
  deriving DecidableEq, Repr

/-- The initial hash value (R104). -/
def initialHash : HashWords where
  a := 0x6a09e667
  b := 0xbb67ae85
  c := 0x3c6ef372
  d := 0xa54ff53a
  e := 0x510e527f
  f := 0x9b05688c
  g := 0x1f83d9ab
  h := 0x5be0cd19

/-! ## Bytes and words (R104, R105, R108) -/

/-- Four bytes as a big-endian word (R104). -/
def wordOfBytes (b0 b1 b2 b3 : Byte) : Word :=
  (b0.setWidth 32 <<< 24) ||| (b1.setWidth 32 <<< 16) ||| (b2.setWidth 32 <<< 8) ||| b3.setWidth 32

/-- The words `word(b, 0), word(b, 1), …` of a byte string (R104). -/
def wordsOf : Bytes → List Word
  | b0 :: b1 :: b2 :: b3 :: rest => wordOfBytes b0 b1 b2 b3 :: wordsOf rest
  | _ => []

/-- `be32(x)`: a word as 4 bytes, most significant first (R108). -/
def be32 (x : Word) : Bytes :=
  [x.extractLsb' 24 8, x.extractLsb' 16 8, x.extractLsb' 8 8, x.extractLsb' 0 8]

/-- `be64(n)`: a number as 8 bytes, most significant first (R105). -/
def be64 (n : Nat) : Bytes := (List.range 8).map fun i => BitVec.ofNat 8 (n >>> (8 * (7 - i)))

/-- The least z ≥ 0 with `(len + 1 + z) mod 64 = 56` (R105). -/
def padZeros (len : Nat) : Nat := (119 - len % 64) % 64

/-- `pad(m) = m ‖ 0x80 ‖ 0x00^z ‖ be64(8 × len(m))` (R105). -/
def pad (m : Bytes) : Bytes :=
  m ++ [0x80] ++ List.replicate (padZeros m.length) 0x00 ++ be64 (8 * m.length)

/-! ## Schedule, compression, hash (R106 to R108) -/

/-- The next word of the schedule from the words so far, newest first:
`σ1(W[t-2]) + W[t-7] + σ0(W[t-15]) + W[t-16]` (R106). -/
def scheduleWord (w : List Word) : Word :=
  smallSigma1 (w.getD 1 0) + w.getD 6 0 + smallSigma0 (w.getD 14 0) + w.getD 15 0

/-- `n` more words of the schedule, newest first. -/
def extendSchedule : Nat → List Word → List Word
  | 0, w => w
  | n + 1, w => extendSchedule n (scheduleWord w :: w)

/-- The message schedule W[0..63] of a 64-byte block (R106). -/
def schedule (block : Bytes) : List Word := (extendSchedule 48 (wordsOf block).reverse).reverse

/-- One round; `kw` is `(Kc[t], W[t])`. Every right-hand side reads the values from the round's start (R107). -/
def compressRound (x : HashWords) (kw : Word × Word) : HashWords :=
  let t1 := x.h + bigSigma1 x.e + ch x.e x.f x.g + kw.1 + kw.2
  let t2 := bigSigma0 x.a + maj x.a x.b x.c
  { a := t1 + t2, b := x.a, c := x.b, d := x.c, e := x.d + t1, f := x.e, g := x.f, h := x.g }

/-- Wordwise addition of two hash values, as `compress` returns it (R107). -/
def HashWords.add (x y : HashWords) : HashWords :=
  { a := x.a + y.a, b := x.b + y.b, c := x.c + y.c, d := x.d + y.d
    e := x.e + y.e, f := x.f + y.f, g := x.g + y.g, h := x.h + y.h }

/-- `compress(H, B)` (R107). -/
def compress (x : HashWords) (block : Bytes) : HashWords :=
  x.add ((roundConstants.zip (schedule block)).foldl compressRound x)

/-- `n` blocks of 64 bytes folded into a hash value (R108). -/
def compressBlocks : Nat → HashWords → Bytes → HashWords
  | 0, x, _ => x
  | n + 1, x, p => compressBlocks n (compress x (p.take 64)) (p.drop 64)

/-- `be32(H[0]) ‖ … ‖ be32(H[7])` (R108). -/
def HashWords.bytes (x : HashWords) : Bytes :=
  be32 x.a ++ be32 x.b ++ be32 x.c ++ be32 x.d ++ be32 x.e ++ be32 x.f ++ be32 x.g ++ be32 x.h

/-- The 32 bytes of a hash value. -/
def HashWords.digest (x : HashWords) : Digest := ⟨⟨x.bytes⟩, rfl⟩

/-- `SHA256(m)` (R108). -/
@[irreducible] def sha256 (m : Bytes) : Digest :=
  (compressBlocks ((pad m).length / 64) initialHash (pad m)).digest

end Sys2Proof.Machine
end

