-- ==== Sys2Proof/Machine/Hmac.lean ====
section
/-! DEFINITION. HMAC-SHA-256 (40_hmac_core.md R110 to R113), the primitive the engine calls (R115). -/

namespace Sys2Proof.Machine

/-- The block size B of SHA-256 in bytes (R110). -/
def hmacBlockSize : Nat := 64

/-- `K0(key)`: the key hashed if it is longer than a block, then filled with zeros to a block (R111). -/
def hmacKey (key : Bytes) : Bytes :=
  if key.length > hmacBlockSize then (sha256 key).toList ++ List.replicate 32 0x00
  else key ++ List.replicate (hmacBlockSize - key.length) 0x00

/-- A byte string xored with a pad byte repeated (R112). -/
def xorPad (b : Byte) (k : Bytes) : Bytes := k.map (· ^^^ b)

/-- `HMAC(key, msg) = SHA256((K0 ⊕ opad) ‖ SHA256((K0 ⊕ ipad) ‖ msg))` (R113). It is a function of values, so nothing is
aliased (00_scope.md R13). -/
@[irreducible] def hmac (key msg : Bytes) : Digest :=
  sha256 (xorPad 0x5c (hmacKey key) ++ (sha256 (xorPad 0x36 (hmacKey key) ++ msg)).toList)

end Sys2Proof.Machine
end

