-- ==== Sys2Proof/Machine/Update.lean ====
section
/-! DEFINITION. The engine's internal transitions: UPDATE (41_drbg_commands.md R140) and the output loop (R164). -/

namespace Sys2Proof.Machine

/-- One pass of UPDATE: `K = HMAC(K, V ‖ sep ‖ data); V = HMAC(K, V)`, the second line with the new K
(41_drbg_commands.md R140). -/
def updatePass (sep : Byte) (data : Bytes) (s : State) : State :=
  let k := hmac s.K.toList (s.V.toList ++ sep :: data)
  s.withKV k (hmac k.toList s.V.toList)

/-- `UPDATE(data)`: the pass with 0x00, and for non-empty data the pass with 0x01 (41_drbg_commands.md R140, R141). -/
def update (data : Bytes) (s : State) : State :=
  if data.isEmpty then updatePass 0x00 data s
  else updatePass 0x01 data (updatePass 0x00 data s)

/-- The output loop: while `temp` holds fewer than `l` bytes, `V <- HMAC(K, V)` and `temp <- temp ‖ V`
(41_drbg_commands.md R164). The first argument bounds the passes; `l` of them are enough, since each adds a byte. -/
def outputLoop (k : Digest) (l : Nat) : Nat → Digest → Bytes → Digest × Bytes
  | 0, v, temp => (v, temp)
  | fuel + 1, v, temp =>
    if temp.length < l then
      outputLoop k l fuel (hmac k.toList v.toList) (temp ++ (hmac k.toList v.toList).toList)
    else (v, temp)

end Sys2Proof.Machine
end

