-- ==== Sys2Proof/Machine/Generate.lean ====
section
/-! DEFINITION. The meaning of the format G command, GENERATE (41_drbg_commands.md section 4). -/

namespace Sys2Proof.Machine

/-- The success of GENERATE: the loop (R164), the truncation and `UPDATE(ε)` (R165), the count and the delivery (R166). -/
def generateBytes (l : Nat) (s : State) : State :=
  let looped := outputLoop s.K l l s.V []
  let refreshed := update [] (s.withV looped.1)
  (refreshed.withCtr (refreshed.ctr + 1)).deliver (looped.2.take l)

/-- GENERATE(S, L), line by line from 41_drbg_commands.md R160: not instantiated first, then R161, R162, R163, then the
success of R164 to R166. -/
def execGenerate (sReq l : Nat) (s : State) : Host.Outcome State Fault Refusal :=
  if s.inst = false then .next (s.complete .notInstantiated)
  else if bitlen l > Config.maxRequestBits then .next (s.complete .request)
  else if sReq > s.strength.toNat then .next (s.complete .request)
  else if s.ctr.toNat ≥ Config.reseedCeiling then .next (s.complete .reseedRequired)
  else .next (generateBytes l s)

end Sys2Proof.Machine
end

