-- ==== Sys2Proof/Machine/Seeding.lean ====
section
/-! DEFINITION. The meanings of the format E commands, INSTANTIATE and RESEED (41_drbg_commands.md sections 1 and 3). -/

namespace Sys2Proof.Machine

/-- INSTANTIATE(S, E, P), line by line from 41_drbg_commands.md R130: the checks in the order R131, R132, R133, R134, then
the success of R135. -/
def execInstantiate (sReq e p : Nat) (s : State) : Host.Outcome State Fault Refusal :=
  if sReq > Config.maxStrength then .next (s.complete .configuration)
  else if bitlen p > Config.maxPersBits then .next (s.complete .configuration)
  else if 2 * bitlen e < 3 * resolve sReq then .next (s.complete .entropyLength)
  else if bitlen e > Config.maxEntropyBits then .next (s.complete .entropyLength)
  else
    let seeded := update (seedOf e p s) (s.construct (BitVec.ofNat 9 (resolve sReq)))
    .next (seeded.setInst.complete .ok)

/-- RESEED(E), line by line from 41_drbg_commands.md R150: not instantiated first, then R151, R152, then the success of
R153. -/
def execReseed (e : Nat) (s : State) : Host.Outcome State Fault Refusal :=
  if s.inst = false then .next (s.complete .notInstantiated)
  else if bitlen e < s.strength.toNat then .next (s.complete .entropyLength)
  else if bitlen e > Config.maxEntropyBits then .next (s.complete .entropyLength)
  else .next (((update (entropyOf e s) s).withCtr 1).complete .ok)

end Sys2Proof.Machine
end

