-- ==== Sys2Proof/Machine/Dispatch.lean ====
section
/-! DEFINITION. One arm per command: the case of 60_exceptions.md R185. -/

namespace Sys2Proof.Machine

/-- What a command does, without the end of the engine step that clears `busy` (60_exceptions.md R185; log entry 18). -/
def exec (i : Instr) (s : State) : Host.Outcome State Fault Refusal :=
  match i with
  | .instantiate sReq e p => Sys2Proof.Machine.execInstantiate sReq e p s
  | .reseed e => Sys2Proof.Machine.execReseed e s
  | .generate sReq l => Sys2Proof.Machine.execGenerate sReq l s

end Sys2Proof.Machine
end

