-- ==== Sys2Proof/Machine/Agents.lean ====
section
/-! DEFINITION. The two agents of 00_scope.md R18 in one step: the engine step (60_exceptions.md R185), the host's events, and
which of them is next. -/

namespace Sys2Proof.Machine

/-- The engine step while a command is pending: decode `cmd`, run the command or complete with ILLEGAL_COMMAND, then
`busy <- 0` (60_exceptions.md R181, R185). -/
def engineStep (s : State) : Host.Outcome State Fault Refusal :=
  match decode s.cmd with
  | .illegal _ => endCommand (.next (s.complete .illegalCommand))
  | .command i => endCommand (exec i s)

/-- The engine's turn: its step is enabled exactly when `busy = 1` (60_exceptions.md R185); otherwise nothing changes
(log entry 3). -/
def engineTurn (s : State) : Host.Outcome State Fault Refusal :=
  if s.busy then engineStep s else .next s

/-- What one event of the total order does (20_memory.md R65). -/
def takeEvent (e : Event) (s : State) : Host.Outcome State Fault Refusal :=
  match e with
  | .access acc => hostAccess acc s
  | .engine => engineTurn s
  | .reset => .next s.resetBlock

/-- The next event. When the host has no more events the engine has its turn, so a pending command always completes
(70_reset_and_hazards.md R210; log entry 14), and an idle block keeps its state (60_exceptions.md R197; log entry 3). -/
def nextEvent (s : State) : Host.Outcome State Fault Refusal :=
  match s.events with
  | [] => engineTurn s
  | e :: rest => takeEvent e (s.withEvents rest)

/-- The state in which the word `w` is the pending command and the engine's turn is next: what an accepted CMD write
leaves (20_memory.md R60), put before the events there are (log entry 2). -/
def placeCommand (w : Word) (s : State) : State := (s.accept w).withEvents (.engine :: s.events)

end Sys2Proof.Machine
end

