-- ==== Sys2Proof/Machine/Step.lean ====
section
/-! DEFINITION. The step of the machine: the next event of the total order of 20_memory.md R65. -/

namespace Sys2Proof.Machine

/-- One step: one host access, one reset, or one atomic engine step (00_scope.md R19). -/
def step (s : State) : Host.Outcome State Fault Refusal := nextEvent s

/-- `s` with the table's word as the pending command and the engine next, so that the very next step decodes and runs it
(log entry 2). The block fetches nothing (10_state.md R27). -/
def State.withFetchWord (s : State) (nbits w : Nat) : State := placeCommand (tableWord nbits w) s

end Sys2Proof.Machine
end

