-- ==== Sys2Proof/Machine/HostProgram.lean ====
section
/-! DEFINITION. The host side of 30_encoding.md section 6: the assembler's lines with their defaults (R90, R92), and the
directives as events (R91). -/

namespace Sys2Proof.Machine

/-- The three mnemonics (30_encoding.md R90). -/
inductive Mnemonic where
  | INSTANTIATE
  | RESEED
  | GENERATE
  deriving DecidableEq, Repr

/-- A line's command: the operands in the assembler's order, the ones left out at their defaults (30_encoding.md R90, R92).
INSTANTIATE's second operand is the personalization length (R93). A wrong number of operands is no line (log entry 17). -/
def lineCommand : Mnemonic → List Nat → Option Instr
  | .INSTANTIATE, [e] => some (.instantiate Config.defaultStrength e 0)
  | .INSTANTIATE, [e, p] => some (.instantiate Config.defaultStrength e p)
  | .INSTANTIATE, [e, p, s] => some (.instantiate s e p)
  | .RESEED, [e] => some (.reseed e)
  | .GENERATE, [n] => some (.generate Config.defaultStrength n)
  | .GENERATE, [n, s] => some (.generate s n)
  | _, _ => none

/-- The word of a line; the assembler refuses an operand that does not fit its field (30_encoding.md R90). -/
def assemble (m : Mnemonic) (operands : List Nat) : Option Word :=
  match lineCommand m operands with
  | some i => if i.wellFormed then some (encode i) else none
  | none => none

/-- WBUF off, bytes: one byte write for each byte, at offset 0x100 + off + j (30_encoding.md R91). The rule bounds no `off`; an
offset past 0xFFF is taken modulo 4096 (DESIGN CHOICE, log entry 20). -/
def wbuf (off : Nat) : Bytes → List Event
  | [] => []
  | b :: bs => .access (.write (BitVec.ofNat 12 (0x100 + off)) 1 (b.setWidth 32)) :: wbuf (off + 1) bs

/-- CMDW word (30_encoding.md R91). -/
def cmdw (w : Word) : List Event := [.access (.write 0x000 4 w)]

/-- RSTAT (30_encoding.md R91). -/
def rstat : List Event := [.access (.read 0x004 4)]

/-- RCNT (30_encoding.md R91). -/
def rcnt : List Event := [.access (.read 0x008 4)]

/-- RBUF off, n: one byte read for each j < n, at offset 0x400 + off + j (30_encoding.md R91). An offset past
0xFFF is taken modulo 4096 (DESIGN CHOICE, log entry 20). -/
def rbuf (off n : Nat) : List Event :=
  (List.range n).map fun j => .access (.read (BitVec.ofNat 12 (0x400 + off + j)) 1)

/-- WAIT (30_encoding.md R91), as it runs when the engine lets `latency` polls read BUSY = 1 first: those polls, the engine's
turn, and the poll that reads BUSY = 0. `latency` stands for LATENCY (00_scope.md R8; log entry 13). -/
def wait (latency : Nat) : List Event :=
  List.replicate latency (.access (.read 0x004 4)) ++ [.engine, .access (.read 0x004 4)]

/-- A bare mnemonic line: CMDW of its word, then WAIT (30_encoding.md R92). -/
def commandLine (w : Word) (latency : Nat) : List Event := cmdw w ++ wait latency

end Sys2Proof.Machine
end

