-- ==== Sys2Proof/Machine/System.lean ====
section
/-! DEFINITION. Several instances of the block, each with its own window (60_exceptions.md R195; 00_scope.md R8). -/

namespace Sys2Proof.Machine

/-- One instance: the host address `BASE` of its window's offset 0, and its own state (00_scope.md R8). -/
structure Placed where
  base  : Nat
  block : State
  deriving DecidableEq, Repr

/-- A system of `INSTANCES` copies of the block: as many as the list has (00_scope.md R8; log entry 12). -/
abbrev System := List Placed

/-- The host address lies in the instance's window of 4096 bytes (20_memory.md R50). -/
def Placed.covers (p : Placed) (addr : Nat) : Bool := p.base ≤ addr && addr < p.base + Config.windowSize

/-- The window offset of a host address. -/
def Placed.offset (p : Placed) (addr : Nat) : Offset := BitVec.ofNat 12 (addr - p.base)

/-- The first instance whose window holds a host address, by its place in the list, with the offset. -/
def System.route : System → Nat → Option (Nat × Offset)
  | [], _ => none
  | p :: ps, addr =>
    if p.covers addr then some (0, p.offset addr)
    else (System.route ps addr).map fun r => (r.1 + 1, r.2)

/-- One step of instance `j`, as the block at that place, so that its draws are its own (20_memory.md R53); every other
instance keeps its state, and a fault of one is the system's (60_exceptions.md R195; log entries 6, 12). A place with no
instance has nothing to step. -/
def System.stepAt (sys : System) (j : Nat) : Host.Outcome System Fault Refusal :=
  match sys[j]? with
  | none => .next sys
  | some p =>
    match step (p.block.atPlace j) with
    | .next t => .next (sys.set j { p with block := t })
    | .fault r => .fault r
    | .refused r => .refused r

/-- The access a host address stands for in its window. -/
def Access.moved (a : Offset) : Access → Access
  | .read _ n => .read a n
  | .write _ n v => .write a n v

/-- Gives a host access to the instance its address selects: the access becomes that instance's next event. An address in
no window selects no instance (the platform's concern). -/
def System.post (sys : System) (addr : Nat) (acc : Access) : Option System :=
  match sys.route addr with
  | none => none
  | some (j, a) =>
    some (sys.modify j fun p =>
      { p with block := p.block.withEvents (.access (acc.moved a) :: p.block.events) })

end Sys2Proof.Machine
end

