-- ==== Sys2Proof/Safety.lean ====
section
/-! DEFINITION. What the claims are stated in: the invariants (10_state.md R40), the engine's regions (41_drbg_commands.md
R168), runs of steps and of commands. -/

namespace Sys2Proof.Machine

/-! ## Invariants -/

/-- The invariants of 10_state.md R40, in its order. -/
structure State.Inv (s : State) : Prop where
  /-- R40.1 -/
  keyLength   : s.K.toList.length = 32 ∧ s.V.toList.length = 32
  /-- R40.2, the tier. -/
  tier        : s.inst = true → s.strength.toNat ∈ Config.tiers
  /-- R40.2, the counter. -/
  counter     : s.inst = true → 1 ≤ s.ctr.toNat ∧ s.ctr.toNat ≤ 10000
  /-- R40.3: no engine step is enabled while `busy = 0`. -/
  notEnabled  : s.busy = false → engineTurn s = .next s
  /-- R40.4 -/
  outputCount : s.outCount.toNat ≤ 937

/-- Both buffers are in the canonical form of their size, so equal contents are equal data (log entry 9). -/
def State.buffersCanonical (s : State) : Prop :=
  Memory.wf 256 s.inBuf = true ∧ Memory.wf 1024 s.outBuf = true

/-! ## The engine's regions -/

/-- The three regions of 41_drbg_commands.md R168. -/
inductive Lifecycle where
  | uninst
  | ready
  | exhausted
  deriving DecidableEq, Repr

/-- The region a state is in (41_drbg_commands.md R168). -/
def State.lifecycle (s : State) : Lifecycle :=
  if s.inst = false then .uninst
  else if s.ctr.toNat < 10000 then .ready
  else .exhausted

/-! ## Whose turn it is -/

/-- The next event is the engine's: its turn is first in the order, or the host has no more events. -/
def State.engineIsNext (s : State) : Prop := s.events = [] ∨ s.events.head? = some .engine

/-- The next event is a reset. -/
def State.resetIsNext (s : State) : Prop := s.events.head? = some .reset

/-! ## Runs -/

/-- `k` steps, stopping at the first fault or refusal. -/
def runSteps : Nat → State → Host.Outcome State Fault Refusal
  | 0, s => .next s
  | k + 1, s =>
    match step s with
    | .next t => runSteps k t
    | .fault r => .fault r
    | .refused r => .refused r

/-- The outcome with its next state changed by `f`. -/
def mapNext (f : State → State) : Host.Outcome State Fault Refusal → Host.Outcome State Fault Refusal
  | .next t => .next (f t)
  | .fault r => .fault r
  | .refused r => .refused r

/-- The number of successful GENERATE commands since the last successful seeding, after one more command with the result
code `err`, from `n` before it (10_state.md R23). -/
def tallyAfter (n : Nat) (i : Instr) (err : ResultCode) : Nat :=
  if err ≠ .ok then n
  else
    match i with
    | .instantiate _ _ _ => 0
    | .reseed _ => 0
    | .generate _ _ => n + 1

/-- A sequence of commands run one after another from `s`, with that number carried along from `n`. -/
def tallyCommands : Nat → List Instr → State → Nat × State
  | n, [], s => (n, s)
  | n, i :: rest, s =>
    match exec i s with
    | .next t => tallyCommands (tallyAfter n i t.err) rest t
    | .fault _ => (n, s)
    | .refused _ => (n, s)

/-! ## Parts of the state -/

/-- The state with other engine registers (10_state.md R21 to R24). -/
def State.withEngine (s : State) (k v : Digest) (c : BitVec 16) (st : BitVec 9) : State :=
  { s with K := k, V := v, ctr := c, strength := st }

/-- The state with another host side: other events to come, other replies, another count of draws, another place. -/
def State.withHost (s : State) (es : List Event) (rs : List Reply) (d j : Nat) : State :=
  { s with events := es, replies := rs, draws := d, place := j }

end Sys2Proof.Machine
end

