-- ==== Sys2Proof/Certificates/Slice0/Obligations.lean ====
section
/-! DEFINITION. The statements for the provers. Each docstring names the rule of spec/ it formalises; where a clause rests on
a choice of the model, it names the log entry (notes/assumptions/<n>.md). -/

open Sys2Proof Sys2Proof.Machine

/-! ## Reset -/

/-- 70_reset_and_hazards.md R200: what reset leaves in every piece of state. -/
def Obligations.ResetLeavesTheStatedValues : Prop :=
  let r := State.reset
  r.K.toList = List.replicate 32 0x00 ∧ r.V.toList = List.replicate 32 0x01 ∧ r.ctr.toNat = 1 ∧ r.strength.toNat = 0 ∧
  r.inst = false ∧ r.busy = false ∧ r.cmd = 0x00000000 ∧ r.err = .ok ∧ r.cmdLost = false ∧
  r.statusValue = 0x00000000 ∧ r.outCount.toNat = 0 ∧
  (∀ i, i < 256 → Memory.read r.inBuf i = 0x00) ∧ (∀ i, i < 1024 → Memory.read r.outBuf i = 0x00)

/-- The invariants of 10_state.md R40, and the canonical form of the buffers (log entry 9), hold right after reset. -/
def Obligations.ResetMeetsTheInvariants : Prop := State.reset.Inv ∧ State.reset.buffersCanonical

/-- 70_reset_and_hazards.md R202: a reset, busy or not, sets the whole record to R200's values; nothing of a pending command
takes effect. The events to come, the replies, the draws and the place are the model's own and stay (log entries 1, 8). -/
def Obligations.ResetEventSetsTheWholeRecord : Prop :=
  ∀ (s : State) (rest : List Event), s.events = .reset :: rest →
    step s = .next { State.reset with events := rest, replies := s.replies, draws := s.draws, place := s.place }

/-! ## Encoding -/

/-- 30_encoding.md R89: the encoding functions, and the worked example words, which decode to their commands. -/
def Obligations.WorkedEncodingsDecodeAndEncode : Prop :=
  (∀ s e p : Nat, s < 512 → e < 256 → p < 256 →
    (encode (.instantiate s e p)).toNat = 1 ||| s <<< 4 ||| e <<< 13 ||| p <<< 21 ∧
    (encode (.reseed e)).toNat = 2 ||| e <<< 13) ∧
  (∀ s l : Nat, s < 512 → l < 65536 → (encode (.generate s l)).toNat = 3 ||| s <<< 4 ||| l <<< 13) ∧
  ∀ x ∈ ([(.instantiate 256 48 0, 0x00061001), (.instantiate 112 21 0, 0x0002A701), (.instantiate 256 125 32, 0x040FB001),
      (.instantiate 300 48 0, 0x000612C1), (.reseed 32, 0x00040002), (.reseed 125, 0x000FA002),
      (.generate 256 128, 0x00101003), (.generate 256 937, 0x00753003), (.generate 256 938, 0x00755003),
      (.generate 256 0, 0x00001003), (.generate 257 32, 0x00041013)] : List (Instr × Word)),
    encode x.1 = x.2 ∧ decode x.2 = .command x.1

/-- Decode and encode agree (30_encoding.md R81 to R83, R86, R89): for every command whose operands fit their fields,
decoding its word gives it back, with every operand at every value its field admits. -/
def Obligations.DecodeOfEncodeIsTheCommand : Prop :=
  ∀ i : Instr, i.wellFormed = true → decode (encode i) = .command i

/-- The other direction (30_encoding.md R86): a word that decodes to a command is that command's one word, so no bit of it is
ignored, and the operands it gives fit their fields. -/
def Obligations.EncodeOfDecodeIsTheWord : Prop :=
  ∀ (w : Word) (i : Instr), decode w = .command i → i.wellFormed = true ∧ encode i = w

/-- 30_encoding.md R87: the reserved encodings, by the word's number, are exactly the words that decode to ILLEGAL. -/
def Obligations.ReservedEncodingsAreExactlyTheIllegalWords : Prop :=
  ∀ w : Word,
    let op := w.toNat % 16
    let reserved :=
      (op = 0 ∨ 4 ≤ op) ∨ w.toNat / 2 ^ 29 ≠ 0 ∨
      (op = 2 ∧ (w.toNat / 2 ^ 4 % 2 ^ 9 ≠ 0 ∨ w.toNat / 2 ^ 21 % 2 ^ 8 ≠ 0))
    (∃ why, decode w = .illegal why) ↔ reserved

/-- 30_encoding.md R85: each command's words are those its mask and match of the opcode map select. -/
def Obligations.DecodeFollowsTheOpcodeMap : Prop :=
  ∀ w : Word,
    ((∃ s e p, decode w = .command (.instantiate s e p)) ↔ w &&& 0xE000000F = 0x00000001) ∧
    ((∃ e, decode w = .command (.reseed e)) ↔ w &&& 0xFFE01FFF = 0x00000002) ∧
    ((∃ s l, decode w = .command (.generate s l)) ↔ w &&& 0xE000000F = 0x00000003)

/-- 30_encoding.md R90, R92, R93: a line the assembler accepts gives a word that decodes to the line's command, with the
operands in the assembler's order (INSTANTIATE's entropy length first, then its personalization length, then the strength); it
accepts exactly the lines whose operands fit; and the operands left out have the stated defaults. That a line is a mnemonic
with a list of numbers is the model's choice (log entry 17). -/
def Obligations.AssembledLineDecodesToItsCommand : Prop :=
  (∀ (m : Mnemonic) (ops : List Nat) (w : Word), assemble m ops = some w →
    ∃ i, lineCommand m ops = some i ∧ decode w = .command i) ∧
  (∀ (e p s : Nat) (w : Word), assemble .INSTANTIATE [e, p, s] = some w → decode w = .command (.instantiate s e p)) ∧
  (∀ (e : Nat) (w : Word), assemble .RESEED [e] = some w → decode w = .command (.reseed e)) ∧
  (∀ (n s : Nat) (w : Word), assemble .GENERATE [n, s] = some w → decode w = .command (.generate s n)) ∧
  (∀ e p s : Nat, (assemble .INSTANTIATE [e, p, s]).isSome = true ↔ e ≤ 255 ∧ p ≤ 255 ∧ s ≤ 511) ∧
  (∀ e : Nat, (assemble .RESEED [e]).isSome = true ↔ e ≤ 255) ∧
  (∀ n s : Nat, (assemble .GENERATE [n, s]).isSome = true ↔ n ≤ 65535 ∧ s ≤ 511) ∧
  (∀ e p n : Nat, assemble .INSTANTIATE [e] = assemble .INSTANTIATE [e, 0, 256] ∧
    assemble .INSTANTIATE [e, p] = assemble .INSTANTIATE [e, p, 256] ∧
    assemble .GENERATE [n] = assemble .GENERATE [n, 256])

/-! ## The engine step -/

/-- A step runs the decoded command: when a command is pending, the engine is next, and the pending word decodes to `i`, the
step is `exec i`, then `busy <- 0` (60_exceptions.md R185), past the engine's turn in the order of events. Two things are the
model's choices: that order as a list in State (log entry 1), and that the engine also has its turn when no host event is left,
the case `s.events = []` (log entry 14). -/
def Obligations.StepRunsTheDecodedCommand : Prop :=
  ∀ (s t : State) (i : Instr), s.busy = true → (s.events = [] ∨ s.events.head? = some .engine) →
    decode s.cmd = .command i → exec i { s with events := s.events.tail } = .next t →
    step s = .next { t with busy := false }

/-- 60_exceptions.md R185: the engine step is enabled exactly while `busy = 1`, its case on the decoded word, and its end. -/
def Obligations.EngineStepFollowsItsCases : Prop :=
  ∀ s : State,
    (s.busy = false → engineTurn s = .next s) ∧
    (∀ why, s.busy = true → decode s.cmd = .illegal why →
      engineTurn s = .next { s with err := .illegalCommand, outCount := 0, busy := false }) ∧
    (∀ i, s.busy = true → decode s.cmd = .command i →
      ∃ t, exec i s = .next t ∧ engineTurn s = .next { t with busy := false })

/-- 60_exceptions.md R181: a pending reserved encoding (30_encoding.md R87), by the word's number, completes with
ILLEGAL_COMMAND in every state, instantiated or not, and changes nothing but `err` and `out_count` (and ends the step). -/
def Obligations.IllegalCommandChangesOnlyErrAndCount : Prop :=
  ∀ s : State, s.busy = true →
    (s.cmd.toNat % 16 = 0 ∨ 4 ≤ s.cmd.toNat % 16 ∨ s.cmd.toNat / 2 ^ 29 ≠ 0 ∨
      (s.cmd.toNat % 16 = 2 ∧ (s.cmd.toNat / 2 ^ 4 % 2 ^ 9 ≠ 0 ∨ s.cmd.toNat / 2 ^ 21 % 2 ^ 8 ≠ 0))) →
    engineTurn s = .next { s with err := .illegalCommand, outCount := 0, busy := false }

/-! ## INSTANTIATE -/

/-- 41_drbg_commands.md R135: the success of INSTANTIATE, with the two passes of UPDATE over the seed written out. INSTANTIATE
completes so in every state whose operands pass the checks of R131 to R134. -/
def Obligations.InstantiateSucceeds : Prop :=
  ∀ (sReq e p : Nat) (s : State),
    sReq ≤ 256 → 8 * p ≤ 256 → 3 * resolve sReq ≤ 2 * (8 * e) → 8 * e ≤ 1000 →
    let seed : Bytes := (List.range (e + p)).map fun i => Memory.read s.inBuf i
    let k0 : Bytes := List.replicate 32 0x00
    let v0 : Bytes := List.replicate 32 0x01
    let k1 := hmac k0 (v0 ++ [0x00] ++ seed)
    let v1 := hmac k1.toList v0
    let k2 := hmac k1.toList (v1.toList ++ [0x01] ++ seed)
    let v2 := hmac k2.toList v1.toList
    ∃ t, exec (.instantiate sReq e p) s = .next t ∧ t.strength.toNat = resolve sReq ∧ t.ctr.toNat = 1 ∧
      t = { s with K := k2, V := v2, ctr := t.ctr, strength := t.strength, inst := true, err := .ok, outCount := 0 }

/-- 41_drbg_commands.md R131 to R134: the checks of INSTANTIATE in their order, the first that fails deciding the code, and
nothing written but `err` and `out_count`. -/
def Obligations.InstantiateReportsItsFirstFailingCheck : Prop :=
  ∀ (sReq e p : Nat) (s : State),
    (256 < sReq → exec (.instantiate sReq e p) s = .next { s with err := .configuration, outCount := 0 }) ∧
    (sReq ≤ 256 → 256 < 8 * p →
      exec (.instantiate sReq e p) s = .next { s with err := .configuration, outCount := 0 }) ∧
    (sReq ≤ 256 → 8 * p ≤ 256 → 2 * (8 * e) < 3 * resolve sReq →
      exec (.instantiate sReq e p) s = .next { s with err := .entropyLength, outCount := 0 }) ∧
    (sReq ≤ 256 → 8 * p ≤ 256 → 3 * resolve sReq ≤ 2 * (8 * e) → 1000 < 8 * e →
      exec (.instantiate sReq e p) s = .next { s with err := .entropyLength, outCount := 0 })

/-- 41_drbg_commands.md R133, its table: the smallest accepted entropy is 21, 24, 36 or 48 bytes, by the resolved strength;
with one byte less INSTANTIATE completes with ENTROPY_LENGTH. -/
def Obligations.InstantiateEntropyMinimum : Prop :=
  ∀ (sReq e p : Nat) (s : State), sReq ≤ 256 → p ≤ 32 → e ≤ 125 →
    let minimum := if sReq ≤ 112 then 21 else if sReq ≤ 128 then 24 else if sReq ≤ 192 then 36 else 48
    ∃ t, exec (.instantiate sReq e p) s = .next t ∧
      (minimum ≤ e → t.err = .ok) ∧ (e < minimum → t.err = .entropyLength)

/-- 41_drbg_commands.md R135, R136: the result of INSTANTIATE depends only on its operands and the seed: two states whose
IN_BUFs agree below E+P, whatever else they hold, end with the same code, and on success with the same engine. -/
def Obligations.InstantiateDependsOnlyOnItsSeed : Prop :=
  ∀ (sReq e p : Nat) (s₁ s₂ : State), (∀ i, i < e + p → Memory.read s₁.inBuf i = Memory.read s₂.inBuf i) →
    ∃ t₁ t₂, exec (.instantiate sReq e p) s₁ = .next t₁ ∧ exec (.instantiate sReq e p) s₂ = .next t₂ ∧
      t₁.err = t₂.err ∧ t₁.outCount = t₂.outCount ∧
      (t₁.err = .ok → t₁.K = t₂.K ∧ t₁.V = t₂.V ∧ t₁.ctr = t₂.ctr ∧ t₁.strength = t₂.strength ∧ t₁.inst = t₂.inst)

/-! ## RESEED -/

/-- 41_drbg_commands.md R153: the success of RESEED, with the two passes of UPDATE over the entropy written out. RESEED
completes so in every instantiated state that meets the invariants, when the entropy passes the checks of R151 and R152.
(The invariant gives `strength ≥ 112`, so the entropy is not empty: R141.) -/
def Obligations.ReseedSucceeds : Prop :=
  ∀ (e : Nat) (s : State), s.Inv → s.inst = true → s.strength.toNat ≤ 8 * e → 8 * e ≤ 1000 →
    let entropy : Bytes := (List.range e).map fun i => Memory.read s.inBuf i
    let k1 := hmac s.K.toList (s.V.toList ++ [0x00] ++ entropy)
    let v1 := hmac k1.toList s.V.toList
    let k2 := hmac k1.toList (v1.toList ++ [0x01] ++ entropy)
    let v2 := hmac k2.toList v1.toList
    ∃ t, exec (.reseed e) s = .next t ∧ t.ctr.toNat = 1 ∧
      t = { s with K := k2, V := v2, ctr := t.ctr, err := .ok, outCount := 0 }

/-- 60_exceptions.md R182, 41_drbg_commands.md R151, R152: the checks of RESEED in their order. -/
def Obligations.ReseedReportsItsFirstFailingCheck : Prop :=
  ∀ (e : Nat) (s : State),
    (s.inst = false → exec (.reseed e) s = .next { s with err := .notInstantiated, outCount := 0 }) ∧
    (s.inst = true → 8 * e < s.strength.toNat →
      exec (.reseed e) s = .next { s with err := .entropyLength, outCount := 0 }) ∧
    (s.inst = true → s.strength.toNat ≤ 8 * e → 1000 < 8 * e →
      exec (.reseed e) s = .next { s with err := .entropyLength, outCount := 0 })

/-- 41_drbg_commands.md R151, its table: the smallest accepted entropy is 14, 16, 24 or 32 bytes, by the strength; with one
byte less RESEED completes with ENTROPY_LENGTH. -/
def Obligations.ReseedEntropyMinimum : Prop :=
  ∀ (e : Nat) (s : State), s.inst = true → e ≤ 125 →
    ∀ x ∈ [(112, 14), (128, 16), (192, 24), (256, 32)], s.strength.toNat = x.1 →
      ∃ t, exec (.reseed e) s = .next t ∧ (x.2 ≤ e → t.err = .ok) ∧ (e < x.2 → t.err = .entropyLength)

/-- 20_memory.md R71: the engine reads IN_BUF only below E, in RESEED, and not at all in GENERATE: with other bytes at and
above E the command does the same. -/
def Obligations.ReseedAndGenerateReadOnlyTheirSlice : Prop :=
  ∀ (e r l : Nat) (s : State) (m : Memory),
    ((∀ i, i < e → Memory.read m i = Memory.read s.inBuf i) →
      exec (.reseed e) { s with inBuf := m } = mapNext (fun t => { t with inBuf := m }) (exec (.reseed e) s)) ∧
    exec (.generate r l) { s with inBuf := m } = mapNext (fun t => { t with inBuf := m }) (exec (.generate r l) s)

/-! ## GENERATE -/

/-- 41_drbg_commands.md R164 to R166: the success of GENERATE. Byte i of the output is byte i mod 32 of the (i div 32 + 1)-th
new V; after ceil(L/32) of them one pass of UPDATE with empty data; `ctr` goes up by one; OUT_BUF keeps every byte at and above
L. GENERATE completes so in every state and for every request that passes the checks of R161 to R163. -/
def Obligations.GenerateSucceeds : Prop :=
  ∀ (sReq l : Nat) (s : State),
    s.inst = true → 8 * l ≤ 7500 → sReq ≤ s.strength.toNat → s.ctr.toNat < 10000 →
    let newV : Nat → Digest := fun j => (fun v : Digest => hmac s.K.toList v.toList)^[j] s.V
    let vLast := newV ((l + 31) / 32)
    let k := hmac s.K.toList (vLast.toList ++ [0x00])
    ∃ t, exec (.generate sReq l) s = .next t ∧
      t.ctr.toNat = s.ctr.toNat + 1 ∧ t.outCount.toNat = l ∧
      (∀ i, i < l → Memory.read t.outBuf i = (newV (i / 32 + 1)).toList.getD (i % 32) 0) ∧
      (∀ i, l ≤ i → Memory.read t.outBuf i = Memory.read s.outBuf i) ∧
      t = { s with
            K := k, V := hmac k.toList vLast.toList, ctr := t.ctr, err := .ok
            outCount := t.outCount, outBuf := t.outBuf }

/-- 60_exceptions.md R182, 41_drbg_commands.md R161 to R163: the checks of GENERATE in their order. -/
def Obligations.GenerateReportsItsFirstFailingCheck : Prop :=
  ∀ (sReq l : Nat) (s : State),
    (s.inst = false → exec (.generate sReq l) s = .next { s with err := .notInstantiated, outCount := 0 }) ∧
    (s.inst = true → 7500 < 8 * l → exec (.generate sReq l) s = .next { s with err := .request, outCount := 0 }) ∧
    (s.inst = true → 8 * l ≤ 7500 → s.strength.toNat < sReq →
      exec (.generate sReq l) s = .next { s with err := .request, outCount := 0 }) ∧
    (s.inst = true → 8 * l ≤ 7500 → sReq ≤ s.strength.toNat → 10000 ≤ s.ctr.toNat →
      exec (.generate sReq l) s = .next { s with err := .reseedRequired, outCount := 0 })

/-- 41_drbg_commands.md R164, R165: two requests from one state agree on the bytes both ask for, and leave the same K and V
when they take the same number of blocks, whatever their strengths and exact lengths. -/
def Obligations.GeneratesFromOneStateAgree : Prop :=
  ∀ (r₁ l₁ r₂ l₂ : Nat) (s : State),
    s.inst = true → s.ctr.toNat < 10000 → 8 * l₁ ≤ 7500 → 8 * l₂ ≤ 7500 → r₁ ≤ s.strength.toNat → r₂ ≤ s.strength.toNat →
    ∃ t₁ t₂, exec (.generate r₁ l₁) s = .next t₁ ∧ exec (.generate r₂ l₂) s = .next t₂ ∧
      (∀ i, i < l₁ → i < l₂ → Memory.read t₁.outBuf i = Memory.read t₂.outBuf i) ∧
      ((l₁ + 31) / 32 = (l₂ + 31) / 32 → t₁.K = t₂.K ∧ t₁.V = t₂.V)

/-- 10_state.md R23: `ctr` is one more than the number of successful GENERATEs since the last successful INSTANTIATE or
RESEED, however many commands of whatever kind run and fail or succeed in between; at most 9999 of them succeed; all 9999 can;
and at 10000 none does. -/
def Obligations.CounterIsOnePlusSuccessfulGenerates : Prop :=
  (∀ (cs : List Instr) (n : Nat) (s : State), s.ctr.toNat = 1 + n → n ≤ 9999 →
    let r := tallyCommands n cs s
    r.2.ctr.toNat = 1 + r.1 ∧ r.1 ≤ 9999) ∧
  (∀ (m : Nat) (s : State), m ≤ 9999 → s.inst = true → s.ctr.toNat = 1 →
    (tallyCommands 0 (List.replicate m (.generate 0 0)) s).1 = m) ∧
  (∀ (r l : Nat) (s : State), 10000 ≤ s.ctr.toNat → ∃ t, exec (.generate r l) s = .next t ∧ t.err ≠ .ok)

/-! ## Frames and failure -/

/-- The frame of the commands that store nothing, INSTANTIATE and RESEED, on every path (41_drbg_commands.md R130, R150): they
write `K`, `V`, `ctr`, `err`, `out_count`, and INSTANTIATE also `strength` and `inst`. -/
def Obligations.SeedingCommandsFrame : Prop :=
  ∀ (i : Instr) (s : State), ((∃ sReq e p, i = .instantiate sReq e p) ∨ ∃ e, i = .reseed e) →
    ∃ t, exec i s = .next t ∧
      t.busy = s.busy ∧ t.cmd = s.cmd ∧ t.cmdLost = s.cmdLost ∧
      t.events = s.events ∧ t.replies = s.replies ∧ t.draws = s.draws ∧ t.place = s.place ∧
      (∀ a, Memory.read t.inBuf a = Memory.read s.inBuf a) ∧ (∀ a, Memory.read t.outBuf a = Memory.read s.outBuf a) ∧
      ((∃ e, i = .reseed e) → t.strength = s.strength ∧ t.inst = s.inst)

/-- The frame of GENERATE, on every path (41_drbg_commands.md R160): it writes `K`, `V`, `ctr`, `err`, `out_count` and
`out_buf[0 ..< L]`; a GENERATE that fails stores nothing. -/
def Obligations.GenerateFrame : Prop :=
  ∀ (sReq l : Nat) (s : State), ∃ t, exec (.generate sReq l) s = .next t ∧
    t.strength = s.strength ∧ t.inst = s.inst ∧ t.busy = s.busy ∧ t.cmd = s.cmd ∧ t.cmdLost = s.cmdLost ∧
    t.events = s.events ∧ t.replies = s.replies ∧ t.draws = s.draws ∧ t.place = s.place ∧
    (∀ a, Memory.read t.inBuf a = Memory.read s.inBuf a) ∧
    (∀ a, (t.err = .ok → l ≤ a) → Memory.read t.outBuf a = Memory.read s.outBuf a)

/-- 60_exceptions.md R184: every command completes; with any code but OK the state after it is the state before it but for
`err` and `out_count`, which is 0; every completion but a successful GENERATE's leaves `out_count` 0, and that one leaves L. -/
def Obligations.FailedCommandIsAtomic : Prop :=
  ∀ (i : Instr) (s : State), ∃ t, exec i s = .next t ∧
    (t.err ≠ .ok → t = { s with err := t.err, outCount := 0 }) ∧
    (¬ (t.err = .ok ∧ ∃ sReq l, i = .generate sReq l) → t.outCount = 0) ∧
    (∀ sReq l, i = .generate sReq l → t.err = .ok → t.outCount.toNat = l)

/-- 41_drbg_commands.md R168: how a command moves between UNINST, READY and EXHAUSTED, and that only a reset leads back to
UNINST. -/
def Obligations.LifecycleFollowsItsTransitions : Prop :=
  (∀ (i : Instr) (s : State), ∃ t, exec i s = .next t ∧
    (t.err ≠ .ok → t.lifecycle = s.lifecycle) ∧
    (∀ sReq e p, i = .instantiate sReq e p → t.err = .ok → t.lifecycle = .ready) ∧
    (∀ e, i = .reseed e → t.err = .ok → s.lifecycle ≠ .uninst ∧ t.lifecycle = .ready) ∧
    (∀ sReq l, i = .generate sReq l → t.err = .ok →
      s.lifecycle = .ready ∧ t.lifecycle = if s.ctr.toNat = 9999 then .exhausted else .ready) ∧
    (∀ sReq l, i = .generate sReq l → s.lifecycle = .exhausted → 8 * l ≤ 7500 → sReq ≤ s.strength.toNat →
      t.err = .reseedRequired)) ∧
  (∀ s t : State, step s = .next t → s.lifecycle ≠ .uninst → ¬ s.resetIsNext → t.lifecycle ≠ .uninst)

/-- 41_drbg_commands.md R169: a command's result is a function of the block's state: other events to come, other replies,
another count of draws, another place in a system change nothing but themselves (the model's own fields: log entries 1, 6, 7,
12). -/
def Obligations.CommandsIgnoreTheHostSide : Prop :=
  ∀ (i : Instr) (s : State) (es : List Event) (rs : List Reply) (d j : Nat),
    exec i (s.withHost es rs d j) = mapNext (fun t => t.withHost es rs d j) (exec i s)

/-! ## UPDATE, strengths and HMAC -/

/-- 41_drbg_commands.md R140: UPDATE's four lines, two for empty data, each with the values the earlier lines left. -/
def Obligations.UpdateRunsItsPasses : Prop :=
  ∀ (data : Bytes) (s : State),
    let k1 := hmac s.K.toList (s.V.toList ++ [0x00] ++ data)
    let v1 := hmac k1.toList s.V.toList
    let k2 := hmac k1.toList (v1.toList ++ [0x01] ++ data)
    let v2 := hmac k2.toList v1.toList
    (data.length = 0 → update data s = { s with K := k1, V := v1 }) ∧
    (0 < data.length → update data s = { s with K := k2, V := v2 })

/-- 00_scope.md R15: strength resolution, its four cases, and that it rounds up to the least tier that suffices. -/
def Obligations.ResolveRoundsUpToATier : Prop :=
  ∀ s : Nat,
    (s ≤ 112 → resolve s = 112) ∧ (112 < s ∧ s ≤ 128 → resolve s = 128) ∧ (128 < s ∧ s ≤ 192 → resolve s = 192) ∧
    (192 < s → resolve s = 256) ∧
    (s ≤ 256 → resolve s ∈ [112, 128, 192, 256] ∧ s ≤ resolve s ∧
      ∀ t ∈ [112, 128, 192, 256], s ≤ t → resolve s ≤ t)

/-- 40_hmac_core.md R105: padding, with the least number of zero bytes, and the bit length in 8 bytes, most significant
first; the result is whole blocks. -/
def Obligations.PadFillsToABlock : Prop :=
  ∀ m : Bytes, ∃ (z : Nat) (tail : Bytes),
    (m.length + 1 + z) % 64 = 56 ∧ (∀ y, y < z → (m.length + 1 + y) % 64 ≠ 56) ∧
    pad m = m ++ [0x80] ++ List.replicate z 0x00 ++ tail ∧ tail.length = 8 ∧
    (8 * m.length < 2 ^ 64 → tail.foldl (fun n b => n * 256 + b.toNat) 0 = 8 * m.length) ∧
    (pad m).length % 64 = 0

/-- 40_hmac_core.md R106: the message schedule of a block, its 16 words and its recurrence. -/
def Obligations.ScheduleFollowsItsRecurrence : Prop :=
  ∀ block : Bytes, block.length = 64 →
    let W : Nat → Word := fun t => (schedule block).getD t 0
    let byte : Nat → Nat := fun i => (block.getD i 0).toNat
    (schedule block).length = 64 ∧
    (∀ t, t < 16 → (W t).toNat =
      byte (4 * t) * 2 ^ 24 + byte (4 * t + 1) * 2 ^ 16 + byte (4 * t + 2) * 2 ^ 8 + byte (4 * t + 3)) ∧
    (∀ t, 16 ≤ t → t < 64 →
      W t = smallSigma1 (W (t - 2)) + W (t - 7) + smallSigma0 (W (t - 15)) + W (t - 16))

/-- 40_hmac_core.md R111, R113: HMAC as the nested hash, with the key prepared to 64 bytes and the pads of R112 bytewise. -/
def Obligations.HmacIsTheNestedHash : Prop :=
  ∀ key msg : Bytes,
    let k0 : Bytes :=
      if key.length > 64 then (sha256 key).toList ++ List.replicate 32 0x00
      else key ++ List.replicate (64 - key.length) 0x00
    let opad : Bytes := List.replicate 64 0x5c
    let ipad : Bytes := List.replicate 64 0x36
    k0.length = 64 ∧
    hmac key msg =
      sha256 (List.zipWith (· ^^^ ·) k0 opad ++ (sha256 (List.zipWith (· ^^^ ·) k0 ipad ++ msg)).toList)

/-- 40_hmac_core.md R109, R114: the known values of SHA-256 and of HMAC-SHA-256. -/
def Obligations.KnownAnswersOfTheCore : Prop :=
  let number : Digest → Nat := fun d => d.toList.foldl (fun n b => n * 256 + b.toNat) 0
  number (sha256 []) = 0xe3b0c44298fc1c149afbf4c8996fb92427ae41e4649b934ca495991b7852b855 ∧
  number (sha256 [0x61, 0x62, 0x63]) = 0xba7816bf8f01cfea414140de5dae2223b00361a396177a9cb410ff61f20015ad ∧
  number (hmac [0x4a, 0x65, 0x66, 0x65]
      [0x77, 0x68, 0x61, 0x74, 0x20, 0x64, 0x6f, 0x20, 0x79, 0x61, 0x20, 0x77, 0x61, 0x6e, 0x74, 0x20, 0x66, 0x6f, 0x72,
       0x20, 0x6e, 0x6f, 0x74, 0x68, 0x69, 0x6e, 0x67, 0x3f]) =
    0x5bdcc146bf60754e6a042426089575c75a003f089d2739839dec58b964ec3843

/-! ## The register window -/

/-- 20_memory.md R55: an access is refused with a bus error exactly when one of the seven conditions holds; otherwise it is
performed. The fault names the access (60_exceptions.md R187). -/
def Obligations.BusErrorsAreExactlyTheListedConditions : Prop :=
  ∀ (s : State) (a : Offset) (n : Nat) (v : Word) (acc : Access), acc = .read a n ∨ acc = .write a n v →
    let x := a.toNat
    let isWrite := acc = .write a n v
    let reservedOffset : Nat → Prop := fun y =>
      (0x00C ≤ y ∧ y < 0x100) ∨ (0x200 ≤ y ∧ y < 0x400) ∨ 0x800 ≤ y
    let listed :=
      (n ≠ 1 ∧ n ≠ 2 ∧ n ≠ 4) ∨ x % n ≠ 0 ∨ (∃ k, k < n ∧ reservedOffset (x + k)) ∨ (x < 0x00C ∧ n ≠ 4) ∨
      (isWrite ∧ ((0x008 ≤ x ∧ x < 0x00C) ∨ (0x400 ≤ x ∧ x < 0x800))) ∨
      (isWrite ∧ 0x100 ≤ x ∧ x < 0x200 ∧ s.busy = true) ∨ (∃ k, k < n ∧ regionOf (x + k) ≠ regionOf x)
    (listed → ∃ why, hostAccess acc s = .fault (.busError acc why)) ∧
    (¬ listed → ∃ t, hostAccess acc s = .next t)

/-- 20_memory.md R56: what a read that is not refused returns, region by region, and that it changes no field of the block.
The reply and the count of draws are the model's own (log entries 6, 7); an OUT_BUF read while busy returns the instance's free
value, cut to the access's width. -/
def Obligations.ReadsReturnTheStatedValues : Prop :=
  ∀ (s : State) (a : Offset) (n : Nat), refused s (.read a n) = none →
    let x := a.toNat
    let lanes : Memory → Nat → Nat := fun m i =>
      ((List.range n).map fun k => (Memory.read m (i + k)).toNat * 2 ^ (8 * k)).sum
    ∃ v : Word,
      hostAccess (.read a n) s =
        .next { s with
                replies := ⟨a, n, v⟩ :: s.replies
                draws := if s.busy = true ∧ 0x400 ≤ x then s.draws + 1 else s.draws } ∧
      (x = 0x000 → v = s.cmd) ∧ (x = 0x004 → v = s.statusValue) ∧ (x = 0x008 → v.toNat = s.outCount.toNat) ∧
      (0x100 ≤ x → x < 0x200 → v.toNat = lanes s.inBuf (x - 0x100)) ∧
      (0x400 ≤ x → x < 0x800 → s.busy = false → v.toNat = lanes s.outBuf (x - 0x400)) ∧
      (0x400 ≤ x → x < 0x800 → s.busy = true → v.toNat = (Config.busyRead s.place s.draws).toNat % 2 ^ (8 * n))

/-- 20_memory.md R58: the byte at the lowest offset of a wide access is bits [7:0] of its value: a wide read of IN_BUF, or of
OUT_BUF while idle, returns what byte reads would; a wide write stores the bytes that byte writes would. -/
def Obligations.WideAccessesAreLittleEndian : Prop :=
  (∀ (s : State) (a : Offset) (n : Nat), refused s (.read a n) = none →
    (regionOf a.toNat = .inBuf ∨ (regionOf a.toNat = .outBuf ∧ s.busy = false)) →
    (readValue s a n).toNat =
      ((List.range n).map fun k => (readValue s (a + BitVec.ofNat 12 k) 1).toNat * 2 ^ (8 * k)).sum) ∧
  (∀ (s : State) (a : Offset) (n : Nat) (v : Word), refused s (.write a n v) = none → regionOf a.toNat = .inBuf →
    ∀ i, Memory.read (memWrite a n v s).inBuf i =
      Memory.read ((List.range n).foldl
        (fun t k => memWrite (a + BitVec.ofNat 12 k) 1 (v >>> (8 * k)) t) s).inBuf i)

/-- 20_memory.md R57, R60: what a write that is not refused does: issue while idle, the drop while busy (R61), STATUS's bit 2
(10_state.md R34), and the bytes of IN_BUF, every other byte as before. -/
def Obligations.WritesHaveTheStatedEffect : Prop :=
  ∀ (s : State) (a : Offset) (n : Nat) (v : Word), refused s (.write a n v) = none →
    let x := a.toNat
    ∃ t, hostAccess (.write a n v) s = .next t ∧
      (x = 0x000 → s.busy = false → t = { s with cmd := v, busy := true }) ∧
      (x = 0x000 → s.busy = true → t = { s with cmdLost := true }) ∧
      (x = 0x004 → v.getLsbD 2 = true → t = { s with cmdLost := false }) ∧
      (x = 0x004 → v.getLsbD 2 = false → t = s) ∧
      (0x100 ≤ x → x < 0x200 → t = { s with inBuf := t.inBuf } ∧
        (∀ k, k < n → (Memory.read t.inBuf (x - 0x100 + k)).toNat = v.toNat / 2 ^ (8 * k) % 256) ∧
        (∀ i, i < x - 0x100 ∨ x - 0x100 + n ≤ i → Memory.read t.inBuf i = Memory.read s.inBuf i))

/-- 20_memory.md R52: IN_BUF is read and written at 0x100 + i: a read of what was just written, at the same offset and
width, returns the value's n×8 bits. -/
def Obligations.WriteThenReadReturnsTheValue : Prop :=
  ∀ (s : State) (a : Offset) (n : Nat) (v : Word), refused s (.write a n v) = none → regionOf a.toNat = .inBuf →
    ∃ t u w, hostAccess (.write a n v) s = .next t ∧ hostAccess (.read a n) t = .next u ∧
      u.replies = ⟨a, n, w⟩ :: s.replies ∧ w.toNat = v.toNat % 2 ^ (8 * n)

/-- 10_state.md R34, with the numbers of 60_exceptions.md R180: the bits of the STATUS read value, and the STATUS write, which
is accepted busy or not. -/
def Obligations.StatusBitsAreTheFlags : Prop :=
  (∀ s : State,
    s.statusValue.getLsbD 0 = s.busy ∧ s.statusValue.getLsbD 1 = s.inst ∧ s.statusValue.getLsbD 2 = s.cmdLost ∧
    s.statusValue.getLsbD 3 = false ∧ s.statusValue.extractLsb' 4 4 = s.err.code ∧
    (∀ i, 8 ≤ i → s.statusValue.getLsbD i = false)) ∧
  (ResultCode.ok.code = 0 ∧ ResultCode.configuration.code = 1 ∧ ResultCode.entropyLength.code = 2 ∧
    ResultCode.request.code = 3 ∧ ResultCode.reseedRequired.code = 4 ∧ ResultCode.illegalCommand.code = 5 ∧
    ResultCode.notInstantiated.code = 6) ∧
  (∀ (s : State) (w : Word), hostAccess (.write 0x004 4 w) s =
    .next (if w.getLsbD 2 = true then { s with cmdLost := false } else s))

/-- 10_state.md R25 ("No host access reads or writes an engine register"): an access does the same whatever K, V, `ctr` and
`strength` hold, so no reply depends on them, and it leaves them, `inst`, `err`, `out_count` and OUT_BUF as they are. For an
OUT_BUF read while busy, that the draw is the same in both states is the model's choice (log entry 6). -/
def Obligations.HostAccessNeverReachesTheEngineRegisters : Prop :=
  (∀ (acc : Access) (s : State) (k v : Digest) (c : BitVec 16) (st : BitVec 9),
    hostAccess acc (s.withEngine k v c st) = mapNext (fun t => t.withEngine k v c st) (hostAccess acc s)) ∧
  (∀ (acc : Access) (s t : State), hostAccess acc s = .next t →
    t.K = s.K ∧ t.V = s.V ∧ t.ctr = s.ctr ∧ t.strength = s.strength ∧ t.inst = s.inst ∧ t.err = s.err ∧
    t.outCount = s.outCount ∧ ∀ i, Memory.read t.outBuf i = Memory.read s.outBuf i)

/-- 20_memory.md R69, 10_state.md R30: while a command is pending no host access changes the command or its input, or ends
the wait; a CMD write only sets `cmd_lost`. -/
def Obligations.PendingCommandAndInputAreFixed : Prop :=
  ∀ (acc : Access) (s t : State), s.busy = true → hostAccess acc s = .next t →
    t.busy = true ∧ t.cmd = s.cmd ∧ (∀ i, Memory.read t.inBuf i = Memory.read s.inBuf i) ∧
    (∀ n v, acc = .write 0x000 n v → t = { s with cmdLost := true })

/-! ## Rules of the whole machine -/

/-- 10_state.md R40: every step keeps the invariants. -/
def Obligations.StepKeepsTheInvariants : Prop := ∀ s t : State, s.Inv → step s = .next t → t.Inv

/-- Every step keeps both buffers in canonical form (log entry 9), so no access and no command stores outside them
(20_memory.md R71 to R73). -/
def Obligations.StepKeepsTheBuffersCanonical : Prop :=
  ∀ s t : State, s.buffersCanonical → step s = .next t → t.buffersCanonical

/-- Canonical buffers that read alike at every index are equal data (log entry 9). -/
def Obligations.CanonicalBuffersThatReadAlikeAreEqual : Prop :=
  ∀ (size : Nat) (m₁ m₂ : Memory), Memory.wf size m₁ = true → Memory.wf size m₂ = true →
    (∀ i, i < size → Memory.read m₁ i = Memory.read m₂ i) → m₁ = m₂

/-- 10_state.md R21 to R24, R26, R29, R32, R36: no step writes an engine register, `inst`, `err`, `out_count` or OUT_BUF but
the engine's step on a pending command, and a reset. That the engine is next when no host event is left is the model's choice
(log entry 14). -/
def Obligations.OnlyTheEngineOrResetWritesTheEngine : Prop :=
  ∀ s t : State, step s = .next t → ¬ (s.busy = true ∧ s.engineIsNext) → ¬ s.resetIsNext →
    t.K = s.K ∧ t.V = s.V ∧ t.ctr = s.ctr ∧ t.strength = s.strength ∧ t.inst = s.inst ∧ t.err = s.err ∧
    t.outCount = s.outCount ∧ t.outBuf = s.outBuf

/-- 10_state.md R24: `strength` changes only by a successful INSTANTIATE, which stores the resolved request, or by a reset.
That the engine is next when no host event is left is the model's choice (log entry 14). -/
def Obligations.StrengthIsWrittenOnlyByInstantiate : Prop :=
  ∀ s t : State, step s = .next t → t.strength ≠ s.strength → ¬ s.resetIsNext →
    s.busy = true ∧ s.engineIsNext ∧ t.err = .ok ∧ t.inst = true ∧
    ∃ sReq e p, decode s.cmd = .command (.instantiate sReq e p) ∧ t.strength.toNat = resolve sReq

/-- 10_state.md R28: `busy` rises exactly at an accepted CMD write, and falls exactly at the engine step, or at a reset. That the
engine is next, so that `busy` falls, also when no host event is left is the model's choice (log entry 14). -/
def Obligations.BusyFollowsIssueAndCompletion : Prop :=
  ∀ s t : State, step s = .next t →
    (s.busy = false → (t.busy = true ↔ ∃ v rest, s.events = .access (.write 0x000 4 v) :: rest)) ∧
    (s.busy = false → ∀ v rest, s.events = .access (.write 0x000 4 v) :: rest → t.cmd = v) ∧
    (s.busy = true → (t.busy = false ↔ s.engineIsNext ∨ s.resetIsNext))

/-- 10_state.md R31: after a step other than a reset, `cmd_lost` is 1 exactly when the step dropped a CMD write, or it was 1
and the step was no STATUS write with bit 2 set. -/
def Obligations.CmdLostIsSticky : Prop :=
  ∀ s t : State, step s = .next t → ¬ s.resetIsNext →
    (t.cmdLost = true ↔
      (s.busy = true ∧ ∃ v, s.events.head? = some (.access (.write 0x000 4 v))) ∨
      (s.cmdLost = true ∧ ¬ ∃ v : Word, s.events.head? = some (.access (.write 0x004 4 v)) ∧ v.getLsbD 2 = true))

/-- 70_reset_and_hazards.md R210. First, within as many steps as the host has events left and one more, a pending command
completes or is abandoned by a reset, unless an access of the host's own ends the run with a bus error. Second, where the
host's events hold no reset and no access that is refused while busy, it completes: within as many steps as there are events
the block comes to the engine's turn with the same command still pending and the rest of the block as it was at the start, but
for `cmd_lost` and the host's side, and that turn ends with `busy` 0. That a bus error stops the run and that the engine has its
turn when no host event is left are the model's choices (log entries 4, 14). -/
def Obligations.PendingCommandCompletes : Prop :=
  (∀ s : State, s.busy = true → ∃ k, k ≤ s.events.length + 1 ∧
    ((∃ t, runSteps k s = .next t ∧ t.busy = false) ∨ (∃ f, runSteps k s = .fault f))) ∧
  (∀ s : State, s.busy = true → .reset ∉ s.events → (∀ acc, .access acc ∈ s.events → refused s acc = none) →
    ∃ k u t, k ≤ s.events.length ∧ runSteps k s = .next u ∧
      u = { s with cmdLost := u.cmdLost, events := u.events, replies := u.replies, draws := u.draws } ∧
      u.engineIsNext ∧ runSteps (k + 1) s = .next t ∧ t.busy = false ∧
      engineTurn (u.withEvents u.events.tail) = .next t)

/-- 20_memory.md R60, R61, R66, 30_encoding.md R91, R92: a command line (the CMD write, then WAIT) on an idle block runs
exactly its one command, however long the engine takes: `latency` polls read the pending STATUS, the last poll the completed
one, and the rest of the block is what the engine step makes of the accepted word (log entries 1, 7, 13). -/
def Obligations.CommandLineRunsOneCommand : Prop :=
  ∀ (s : State) (w : Word) (latency : Nat) (rest : List Event),
    s.busy = false → s.events = commandLine w latency ++ rest →
    let pending : State := { s with cmd := w, busy := true }
    ∃ u, engineTurn pending = .next u ∧
      runSteps (latency + 3) s =
        .next { u with
                events := rest
                replies := ⟨0x004, 4, u.statusValue⟩ ::
                  (List.replicate latency ⟨0x004, 4, pending.statusValue⟩ ++ s.replies) }

/-- 60_exceptions.md R195: instances share nothing. A step of one is `step` of its own block, at its own place in the system,
and leaves every other as it was. An access to a host address in some instance's window becomes the next event of one instance
whose window holds the address, at the offset from that window's base and with the access's own width and value, and changes
nothing else. The list of placed blocks, the place that gives an instance its own draws, and the events as a list are the
model's choices (log entries 1, 6, 12). -/
def Obligations.InstancesAreIndependent : Prop :=
  (∀ (sys sys' : System) (j : Nat), sys.stepAt j = .next sys' →
    (∀ k, k ≠ j → sys'[k]? = sys[k]?) ∧
    (∀ p, sys[j]? = some p →
      ∃ t, step { p.block with place := j } = .next t ∧ t.place = j ∧ sys'[j]? = some ⟨p.base, t⟩)) ∧
  (∀ (sys : System) (addr : Nat) (acc : Access),
    (∃ p ∈ sys, p.base ≤ addr ∧ addr < p.base + 4096) ↔ (sys.post addr acc).isSome = true) ∧
  (∀ (sys sys' : System) (addr : Nat) (acc : Access), sys.post addr acc = some sys' →
    ∃ (j : Nat) (p : Placed) (moved : Access),
      sys[j]? = some p ∧ p.base ≤ addr ∧ addr < p.base + 4096 ∧
      (∀ a n, acc = .read a n → ∃ b : Offset, b.toNat = addr - p.base ∧ moved = .read b n) ∧
      (∀ a n v, acc = .write a n v → ∃ b : Offset, b.toNat = addr - p.base ∧ moved = .write b n v) ∧
      sys'[j]? = some ⟨p.base, { p.block with events := .access moved :: p.block.events }⟩ ∧
      ∀ k, k ≠ j → sys'[k]? = sys[k]?)
end

