-- ==== Sys2Proof/Laws/Memory.lean ====
section
/-! SUPPORT. The laws of the buffers: reading back, writing elsewhere, and the canonical form. -/

namespace Sys2Proof.Machine

/-- Indexes of a listing are all above `a`: the side condition of the canonical form, said of every cell. -/
def Memory.above (a : Nat) (m : Memory) : Prop := ∀ c ∈ m, a < c.1

/-- The canonical form, cell by cell: a cell in front of a canonical rest with all indexes above its own. -/
theorem Memory.wf_cons_iff (size k : Nat) (v : Byte) (m : Memory) :
    Memory.wf size ((k, v) :: m) = true ↔
      k < size ∧ v ≠ Memory.unlisted ∧ Memory.above k m ∧ Memory.wf size m = true := by
  induction m generalizing k v with
  | nil => simp [Memory.wf, Memory.above]
  | cons c m ih =>
    obtain ⟨k', v'⟩ := c
    have ih' := ih k' v'
    constructor
    · intro h
      simp only [Memory.wf, Bool.and_eq_true, decide_eq_true_eq] at h
      obtain ⟨⟨hk, hv⟩, hw⟩ := h
      obtain ⟨hs, _, ha, _⟩ := ih'.1 hw
      refine ⟨by omega, hv, ?_, hw⟩
      intro c hc
      rcases List.mem_cons.1 hc with rfl | hc
      · exact hk
      · exact Nat.lt_trans hk (ha c hc)
    · rintro ⟨_, hv, ha, hw⟩
      have hk : k < k' := ha (k', v') (by simp)
      simp [Memory.wf, hk, hv, hw]

@[simp] theorem Memory.wf_nil (size : Nat) : Memory.wf size [] = true := rfl

@[simp] theorem Memory.read_nil (a : Nat) : Memory.read [] a = Memory.unlisted := rfl

/-- Below the first index nothing is listed. -/
theorem Memory.read_of_above {a : Nat} {m : Memory} (h : Memory.above a m) : Memory.read m a = Memory.unlisted := by
  induction m with
  | nil => rfl
  | cons c m ih =>
    obtain ⟨k, v⟩ := c
    have hk : a < k := h (k, v) (by simp)
    have hm : Memory.above a m := fun c hc => h c (by simp [hc])
    simp [Memory.read, Nat.ne_of_gt hk, ih hm]

/-- Reading an inserted byte, and reading elsewhere. -/
theorem Memory.read_insert (m : Memory) (a b : Nat) (v : Byte) :
    Memory.read (Memory.insert m a v) b = if b = a then v else Memory.read m b := by
  induction m with
  | nil => simp [Memory.insert, Memory.read, eq_comm]
  | cons c m ih =>
    obtain ⟨k, w⟩ := c
    simp only [Memory.insert]
    split
    · simp [Memory.read, eq_comm]
    · split
      · subst_vars
        by_cases hb : b = k
        · simp [Memory.read, hb]
        · simp [Memory.read, hb, Ne.symm hb]
      · by_cases hk : k = b
        · subst hk
          have : ¬ k = a := by omega
          simp [Memory.read, this]
        · simp [Memory.read, hk, ih]

/-- Every index of an erased listing was an index of the listing. -/
theorem Memory.above_erase {x a : Nat} {m : Memory} (h : Memory.above x m) : Memory.above x (Memory.erase m a) :=
  fun c hc => h c (List.mem_of_mem_filter hc)

/-- Every index of a listing with one more was an index of the listing or is the new one. -/
theorem Memory.above_insert {x a : Nat} {m : Memory} {v : Byte} (hx : x < a) (h : Memory.above x m) :
    Memory.above x (Memory.insert m a v) := by
  induction m with
  | nil => intro c hc; simp [Memory.insert] at hc; simpa [hc] using hx
  | cons c m ih =>
    obtain ⟨k, w⟩ := c
    have hk : x < k := h (k, w) (by simp)
    have hm : Memory.above x m := fun c hc => h c (by simp [hc])
    simp only [Memory.insert]
    split
    · intro c hc
      rcases List.mem_cons.1 hc with rfl | hc
      · exact hx
      · exact h c hc
    · split
      · intro c hc
        rcases List.mem_cons.1 hc with rfl | hc
        · exact hx
        · exact hm c hc
      · intro c hc
        rcases List.mem_cons.1 hc with rfl | hc
        · exact hk
        · exact ih hm c hc

/-- Reading an erased index, and reading elsewhere. -/
theorem Memory.read_erase (m : Memory) (a b : Nat) :
    Memory.read (Memory.erase m a) b = if b = a then Memory.unlisted else Memory.read m b := by
  induction m with
  | nil => simp [Memory.erase]
  | cons c m ih =>
    obtain ⟨k, v⟩ := c
    unfold Memory.erase at ih ⊢
    by_cases hka : k = a
    · subst hka
      by_cases hb : b = k
      · simpa [hb] using ih
      · simpa [hb, Memory.read, Ne.symm hb] using ih
    · by_cases hkb : k = b
      · subst hkb
        simp [Memory.read, hka]
      · simpa [Memory.read, hka, hkb] using ih

/-- Reading one byte after writing one byte. -/
theorem Memory.read_write (m : Memory) (a b : Nat) (v : Byte) :
    Memory.read (Memory.write m a v) b = if b = a then v else Memory.read m b := by
  unfold Memory.write
  split
  · subst_vars
    exact Memory.read_erase m a b
  · exact Memory.read_insert m a b v

/-- Erasing keeps the canonical form. -/
theorem Memory.wf_erase {size : Nat} {m : Memory} (h : Memory.wf size m = true) (a : Nat) :
    Memory.wf size (Memory.erase m a) = true := by
  induction m with
  | nil => rfl
  | cons c m ih =>
    obtain ⟨k, v⟩ := c
    obtain ⟨hk, hv, ha, hw⟩ := (Memory.wf_cons_iff _ _ _ _).1 h
    have hm : Memory.wf size (Memory.erase m a) = true := ih hw
    by_cases hka : k = a
    · have : Memory.erase ((k, v) :: m) a = Memory.erase m a := by simp [Memory.erase, hka]
      rw [this]; exact hm
    · have : Memory.erase ((k, v) :: m) a = (k, v) :: Memory.erase m a := by simp [Memory.erase, hka]
      rw [this]; exact (Memory.wf_cons_iff _ _ _ _).2 ⟨hk, hv, Memory.above_erase ha, hm⟩

/-- Inserting a byte that is not the unlisted one, at an index of the buffer, keeps the canonical form. -/
theorem Memory.wf_insert {size : Nat} {m : Memory} (h : Memory.wf size m = true) {a : Nat} (hsz : a < size)
    {v : Byte} (hv0 : v ≠ Memory.unlisted) : Memory.wf size (Memory.insert m a v) = true := by
  induction m with
  | nil => simp [Memory.insert, Memory.wf, hsz, hv0]
  | cons c m ih =>
    obtain ⟨k, w⟩ := c
    obtain ⟨hk, hv, ha, hw⟩ := (Memory.wf_cons_iff _ _ _ _).1 h
    simp only [Memory.insert]
    split
    · refine (Memory.wf_cons_iff _ _ _ _).2 ⟨hsz, hv0, ?_, h⟩
      intro c hc
      rcases List.mem_cons.1 hc with rfl | hc
      · assumption
      · exact Nat.lt_trans ‹_› (ha c hc)
    · split
      · subst_vars
        exact (Memory.wf_cons_iff _ _ _ _).2 ⟨hsz, hv0, ha, hw⟩
      · exact (Memory.wf_cons_iff _ _ _ _).2 ⟨hk, hv, Memory.above_insert (by omega) ha, ih hw⟩

/-- Writing a byte of the buffer keeps the canonical form. -/
theorem Memory.wf_write {size : Nat} {m : Memory} (h : Memory.wf size m = true) {a : Nat} (hsz : a < size)
    (v : Byte) : Memory.wf size (Memory.write m a v) = true := by
  unfold Memory.write
  split
  · exact Memory.wf_erase h a
  · exact Memory.wf_insert h hsz ‹_›

/-- Writing bytes that fit in the buffer keeps the canonical form. -/
theorem Memory.wf_writeBytes {size : Nat} (bs : Bytes) {m : Memory} (h : Memory.wf size m = true) {a : Nat}
    (hsz : a + bs.length ≤ size) : Memory.wf size (Memory.writeBytes m a bs) = true := by
  induction bs generalizing m a with
  | nil => exact h
  | cons b bs ih =>
    simp only [List.length_cons] at hsz
    exact ih (Memory.wf_write h (by omega) b) (by omega)

/-- Reading one byte after writing a string: byte `i - a` of the string inside it, the old byte outside. -/
theorem Memory.read_writeBytes (bs : Bytes) (m : Memory) (a i : Nat) :
    Memory.read (Memory.writeBytes m a bs) i =
      if a ≤ i ∧ i < a + bs.length then bs.getD (i - a) 0 else Memory.read m i := by
  induction bs generalizing m a with
  | nil =>
    have : ¬ (a ≤ i ∧ i < a) := by omega
    simp [Memory.writeBytes, this]
  | cons b bs ih =>
    simp only [Memory.writeBytes]
    rw [ih, Memory.read_write]
    by_cases hia : i = a
    · subst hia
      simp
    · by_cases hin : a + 1 ≤ i ∧ i < a + 1 + bs.length
      · have h1 : a ≤ i ∧ i < a + (b :: bs).length := by simp; omega
        rw [if_pos hin, if_pos h1]
        obtain ⟨j, rfl⟩ : ∃ j, i = a + 1 + j := ⟨i - (a + 1), by omega⟩
        have h2 : a + 1 + j - a = j + 1 := by omega
        simp [h2]
      · have h1 : ¬ (a ≤ i ∧ i < a + (b :: bs).length) := by simp; omega
        rw [if_neg hin, if_neg hia, if_neg h1]

/-- Writing one more byte after a string. -/
theorem Memory.writeBytes_snoc (bs : Bytes) (m : Memory) (a : Nat) (b : Byte) :
    Memory.writeBytes m a (bs ++ [b]) = Memory.write (Memory.writeBytes m a bs) (a + bs.length) b := by
  induction bs generalizing m a with
  | nil => simp [Memory.writeBytes]
  | cons c bs ih =>
    have h : a + 1 + bs.length = a + (c :: bs).length := by simp; omega
    simp only [List.cons_append, Memory.writeBytes, ih, h]

/-- A slice has the length asked for. -/
@[simp] theorem Memory.length_slice (m : Memory) (i n : Nat) : (Memory.slice m i n).length = n := by
  simp [Memory.slice]

/-- Byte `k` of a slice is the byte at its index. -/
theorem Memory.getD_slice (m : Memory) (i n k : Nat) (hk : k < n) :
    (Memory.slice m i n).getD k 0 = Memory.read m (i + k) := by
  simp [Memory.slice, List.getD, hk]

/-- Two slices in a row are one slice. -/
theorem Memory.slice_append (m : Memory) (i n k : Nat) :
    Memory.slice m i n ++ Memory.slice m (i + n) k = Memory.slice m i (n + k) := by
  simp [Memory.slice, ← List.map_append, List.range'_append_1]

/-- A slice depends on the bytes at its indexes only. -/
theorem Memory.slice_congr {m m' : Memory} {i n : Nat}
    (h : ∀ k, i ≤ k → k < i + n → Memory.read m k = Memory.read m' k) :
    Memory.slice m i n = Memory.slice m' i n := by
  apply List.map_congr_left
  intro k hk
  obtain ⟨h1, h2⟩ := List.mem_range'_1.1 hk
  exact h k h1 h2

end Sys2Proof.Machine
end

