-- ==== Sys2Proof/Laws/State.lean ====
section
/-! SUPPORT. One lemma per field per named update of State: what the update leaves there. -/

namespace Sys2Proof.Machine

/-! ### `withKV`: UPDATE's write of K and V -/

@[simp] theorem State.withKV_K (s : State) (k v : Digest) : (s.withKV k v).K = k := rfl
@[simp] theorem State.withKV_V (s : State) (k v : Digest) : (s.withKV k v).V = v := rfl
@[simp] theorem State.withKV_ctr (s : State) (k v : Digest) : (s.withKV k v).ctr = s.ctr := rfl
@[simp] theorem State.withKV_strength (s : State) (k v : Digest) : (s.withKV k v).strength = s.strength := rfl
@[simp] theorem State.withKV_inst (s : State) (k v : Digest) : (s.withKV k v).inst = s.inst := rfl
@[simp] theorem State.withKV_busy (s : State) (k v : Digest) : (s.withKV k v).busy = s.busy := rfl
@[simp] theorem State.withKV_cmd (s : State) (k v : Digest) : (s.withKV k v).cmd = s.cmd := rfl
@[simp] theorem State.withKV_err (s : State) (k v : Digest) : (s.withKV k v).err = s.err := rfl
@[simp] theorem State.withKV_cmdLost (s : State) (k v : Digest) : (s.withKV k v).cmdLost = s.cmdLost := rfl
@[simp] theorem State.withKV_outCount (s : State) (k v : Digest) : (s.withKV k v).outCount = s.outCount := rfl
@[simp] theorem State.withKV_inBuf (s : State) (k v : Digest) : (s.withKV k v).inBuf = s.inBuf := rfl
@[simp] theorem State.withKV_outBuf (s : State) (k v : Digest) : (s.withKV k v).outBuf = s.outBuf := rfl
@[simp] theorem State.withKV_events (s : State) (k v : Digest) : (s.withKV k v).events = s.events := rfl
@[simp] theorem State.withKV_replies (s : State) (k v : Digest) : (s.withKV k v).replies = s.replies := rfl
@[simp] theorem State.withKV_draws (s : State) (k v : Digest) : (s.withKV k v).draws = s.draws := rfl
@[simp] theorem State.withKV_place (s : State) (k v : Digest) : (s.withKV k v).place = s.place := rfl

/-! ### `withV`: the output loop's write of V -/

@[simp] theorem State.withV_K (s : State) (v : Digest) : (s.withV v).K = s.K := rfl
@[simp] theorem State.withV_V (s : State) (v : Digest) : (s.withV v).V = v := rfl
@[simp] theorem State.withV_ctr (s : State) (v : Digest) : (s.withV v).ctr = s.ctr := rfl
@[simp] theorem State.withV_strength (s : State) (v : Digest) : (s.withV v).strength = s.strength := rfl
@[simp] theorem State.withV_inst (s : State) (v : Digest) : (s.withV v).inst = s.inst := rfl
@[simp] theorem State.withV_busy (s : State) (v : Digest) : (s.withV v).busy = s.busy := rfl
@[simp] theorem State.withV_cmd (s : State) (v : Digest) : (s.withV v).cmd = s.cmd := rfl
@[simp] theorem State.withV_err (s : State) (v : Digest) : (s.withV v).err = s.err := rfl
@[simp] theorem State.withV_cmdLost (s : State) (v : Digest) : (s.withV v).cmdLost = s.cmdLost := rfl
@[simp] theorem State.withV_outCount (s : State) (v : Digest) : (s.withV v).outCount = s.outCount := rfl
@[simp] theorem State.withV_inBuf (s : State) (v : Digest) : (s.withV v).inBuf = s.inBuf := rfl
@[simp] theorem State.withV_outBuf (s : State) (v : Digest) : (s.withV v).outBuf = s.outBuf := rfl
@[simp] theorem State.withV_events (s : State) (v : Digest) : (s.withV v).events = s.events := rfl
@[simp] theorem State.withV_replies (s : State) (v : Digest) : (s.withV v).replies = s.replies := rfl
@[simp] theorem State.withV_draws (s : State) (v : Digest) : (s.withV v).draws = s.draws := rfl
@[simp] theorem State.withV_place (s : State) (v : Digest) : (s.withV v).place = s.place := rfl

/-! ### `withCtr`: the write of ctr -/

@[simp] theorem State.withCtr_K (s : State) (c : BitVec 16) : (s.withCtr c).K = s.K := rfl
@[simp] theorem State.withCtr_V (s : State) (c : BitVec 16) : (s.withCtr c).V = s.V := rfl
@[simp] theorem State.withCtr_ctr (s : State) (c : BitVec 16) : (s.withCtr c).ctr = c := rfl
@[simp] theorem State.withCtr_strength (s : State) (c : BitVec 16) : (s.withCtr c).strength = s.strength := rfl
@[simp] theorem State.withCtr_inst (s : State) (c : BitVec 16) : (s.withCtr c).inst = s.inst := rfl
@[simp] theorem State.withCtr_busy (s : State) (c : BitVec 16) : (s.withCtr c).busy = s.busy := rfl
@[simp] theorem State.withCtr_cmd (s : State) (c : BitVec 16) : (s.withCtr c).cmd = s.cmd := rfl
@[simp] theorem State.withCtr_err (s : State) (c : BitVec 16) : (s.withCtr c).err = s.err := rfl
@[simp] theorem State.withCtr_cmdLost (s : State) (c : BitVec 16) : (s.withCtr c).cmdLost = s.cmdLost := rfl
@[simp] theorem State.withCtr_outCount (s : State) (c : BitVec 16) : (s.withCtr c).outCount = s.outCount := rfl
@[simp] theorem State.withCtr_inBuf (s : State) (c : BitVec 16) : (s.withCtr c).inBuf = s.inBuf := rfl
@[simp] theorem State.withCtr_outBuf (s : State) (c : BitVec 16) : (s.withCtr c).outBuf = s.outBuf := rfl
@[simp] theorem State.withCtr_events (s : State) (c : BitVec 16) : (s.withCtr c).events = s.events := rfl
@[simp] theorem State.withCtr_replies (s : State) (c : BitVec 16) : (s.withCtr c).replies = s.replies := rfl
@[simp] theorem State.withCtr_draws (s : State) (c : BitVec 16) : (s.withCtr c).draws = s.draws := rfl
@[simp] theorem State.withCtr_place (s : State) (c : BitVec 16) : (s.withCtr c).place = s.place := rfl

/-! ### `construct`: the initial load of INSTANTIATE -/

@[simp] theorem State.construct_K (s : State) (r : BitVec 9) : (s.construct r).K = Vector.replicate 32 0x00 := rfl
@[simp] theorem State.construct_V (s : State) (r : BitVec 9) : (s.construct r).V = Vector.replicate 32 0x01 := rfl
@[simp] theorem State.construct_ctr (s : State) (r : BitVec 9) : (s.construct r).ctr = 1 := rfl
@[simp] theorem State.construct_strength (s : State) (r : BitVec 9) : (s.construct r).strength = r := rfl
@[simp] theorem State.construct_inst (s : State) (r : BitVec 9) : (s.construct r).inst = s.inst := rfl
@[simp] theorem State.construct_busy (s : State) (r : BitVec 9) : (s.construct r).busy = s.busy := rfl
@[simp] theorem State.construct_cmd (s : State) (r : BitVec 9) : (s.construct r).cmd = s.cmd := rfl
@[simp] theorem State.construct_err (s : State) (r : BitVec 9) : (s.construct r).err = s.err := rfl
@[simp] theorem State.construct_cmdLost (s : State) (r : BitVec 9) : (s.construct r).cmdLost = s.cmdLost := rfl
@[simp] theorem State.construct_outCount (s : State) (r : BitVec 9) : (s.construct r).outCount = s.outCount := rfl
@[simp] theorem State.construct_inBuf (s : State) (r : BitVec 9) : (s.construct r).inBuf = s.inBuf := rfl
@[simp] theorem State.construct_outBuf (s : State) (r : BitVec 9) : (s.construct r).outBuf = s.outBuf := rfl
@[simp] theorem State.construct_events (s : State) (r : BitVec 9) : (s.construct r).events = s.events := rfl
@[simp] theorem State.construct_replies (s : State) (r : BitVec 9) : (s.construct r).replies = s.replies := rfl
@[simp] theorem State.construct_draws (s : State) (r : BitVec 9) : (s.construct r).draws = s.draws := rfl
@[simp] theorem State.construct_place (s : State) (r : BitVec 9) : (s.construct r).place = s.place := rfl

/-! ### `setInst`: `inst <- 1` -/

@[simp] theorem State.setInst_K (s : State) : (s.setInst).K = s.K := rfl
@[simp] theorem State.setInst_V (s : State) : (s.setInst).V = s.V := rfl
@[simp] theorem State.setInst_ctr (s : State) : (s.setInst).ctr = s.ctr := rfl
@[simp] theorem State.setInst_strength (s : State) : (s.setInst).strength = s.strength := rfl
@[simp] theorem State.setInst_inst (s : State) : (s.setInst).inst = true := rfl
@[simp] theorem State.setInst_busy (s : State) : (s.setInst).busy = s.busy := rfl
@[simp] theorem State.setInst_cmd (s : State) : (s.setInst).cmd = s.cmd := rfl
@[simp] theorem State.setInst_err (s : State) : (s.setInst).err = s.err := rfl
@[simp] theorem State.setInst_cmdLost (s : State) : (s.setInst).cmdLost = s.cmdLost := rfl
@[simp] theorem State.setInst_outCount (s : State) : (s.setInst).outCount = s.outCount := rfl
@[simp] theorem State.setInst_inBuf (s : State) : (s.setInst).inBuf = s.inBuf := rfl
@[simp] theorem State.setInst_outBuf (s : State) : (s.setInst).outBuf = s.outBuf := rfl
@[simp] theorem State.setInst_events (s : State) : (s.setInst).events = s.events := rfl
@[simp] theorem State.setInst_replies (s : State) : (s.setInst).replies = s.replies := rfl
@[simp] theorem State.setInst_draws (s : State) : (s.setInst).draws = s.draws := rfl
@[simp] theorem State.setInst_place (s : State) : (s.setInst).place = s.place := rfl

/-! ### `deliver`: the delivery of GENERATE -/

@[simp] theorem State.deliver_K (s : State) (out : Bytes) : (s.deliver out).K = s.K := rfl
@[simp] theorem State.deliver_V (s : State) (out : Bytes) : (s.deliver out).V = s.V := rfl
@[simp] theorem State.deliver_ctr (s : State) (out : Bytes) : (s.deliver out).ctr = s.ctr := rfl
@[simp] theorem State.deliver_strength (s : State) (out : Bytes) : (s.deliver out).strength = s.strength := rfl
@[simp] theorem State.deliver_inst (s : State) (out : Bytes) : (s.deliver out).inst = s.inst := rfl
@[simp] theorem State.deliver_busy (s : State) (out : Bytes) : (s.deliver out).busy = s.busy := rfl
@[simp] theorem State.deliver_cmd (s : State) (out : Bytes) : (s.deliver out).cmd = s.cmd := rfl
@[simp] theorem State.deliver_err (s : State) (out : Bytes) : (s.deliver out).err = .ok := rfl
@[simp] theorem State.deliver_cmdLost (s : State) (out : Bytes) : (s.deliver out).cmdLost = s.cmdLost := rfl
@[simp] theorem State.deliver_outCount (s : State) (out : Bytes) : (s.deliver out).outCount = BitVec.ofNat 16 out.length := rfl
@[simp] theorem State.deliver_inBuf (s : State) (out : Bytes) : (s.deliver out).inBuf = s.inBuf := rfl
@[simp] theorem State.deliver_outBuf (s : State) (out : Bytes) : (s.deliver out).outBuf = Memory.writeBytes s.outBuf 0 out := rfl
@[simp] theorem State.deliver_events (s : State) (out : Bytes) : (s.deliver out).events = s.events := rfl
@[simp] theorem State.deliver_replies (s : State) (out : Bytes) : (s.deliver out).replies = s.replies := rfl
@[simp] theorem State.deliver_draws (s : State) (out : Bytes) : (s.deliver out).draws = s.draws := rfl
@[simp] theorem State.deliver_place (s : State) (out : Bytes) : (s.deliver out).place = s.place := rfl

/-! ### `complete`: completion -/

@[simp] theorem State.complete_K (s : State) (code : ResultCode) : (s.complete code).K = s.K := rfl
@[simp] theorem State.complete_V (s : State) (code : ResultCode) : (s.complete code).V = s.V := rfl
@[simp] theorem State.complete_ctr (s : State) (code : ResultCode) : (s.complete code).ctr = s.ctr := rfl
@[simp] theorem State.complete_strength (s : State) (code : ResultCode) : (s.complete code).strength = s.strength := rfl
@[simp] theorem State.complete_inst (s : State) (code : ResultCode) : (s.complete code).inst = s.inst := rfl
@[simp] theorem State.complete_busy (s : State) (code : ResultCode) : (s.complete code).busy = s.busy := rfl
@[simp] theorem State.complete_cmd (s : State) (code : ResultCode) : (s.complete code).cmd = s.cmd := rfl
@[simp] theorem State.complete_err (s : State) (code : ResultCode) : (s.complete code).err = code := rfl
@[simp] theorem State.complete_cmdLost (s : State) (code : ResultCode) : (s.complete code).cmdLost = s.cmdLost := rfl
@[simp] theorem State.complete_outCount (s : State) (code : ResultCode) : (s.complete code).outCount = 0 := rfl
@[simp] theorem State.complete_inBuf (s : State) (code : ResultCode) : (s.complete code).inBuf = s.inBuf := rfl
@[simp] theorem State.complete_outBuf (s : State) (code : ResultCode) : (s.complete code).outBuf = s.outBuf := rfl
@[simp] theorem State.complete_events (s : State) (code : ResultCode) : (s.complete code).events = s.events := rfl
@[simp] theorem State.complete_replies (s : State) (code : ResultCode) : (s.complete code).replies = s.replies := rfl
@[simp] theorem State.complete_draws (s : State) (code : ResultCode) : (s.complete code).draws = s.draws := rfl
@[simp] theorem State.complete_place (s : State) (code : ResultCode) : (s.complete code).place = s.place := rfl

/-! ### `clearBusy`: the end of an engine step -/

@[simp] theorem State.clearBusy_K (s : State) : (s.clearBusy).K = s.K := rfl
@[simp] theorem State.clearBusy_V (s : State) : (s.clearBusy).V = s.V := rfl
@[simp] theorem State.clearBusy_ctr (s : State) : (s.clearBusy).ctr = s.ctr := rfl
@[simp] theorem State.clearBusy_strength (s : State) : (s.clearBusy).strength = s.strength := rfl
@[simp] theorem State.clearBusy_inst (s : State) : (s.clearBusy).inst = s.inst := rfl
@[simp] theorem State.clearBusy_busy (s : State) : (s.clearBusy).busy = false := rfl
@[simp] theorem State.clearBusy_cmd (s : State) : (s.clearBusy).cmd = s.cmd := rfl
@[simp] theorem State.clearBusy_err (s : State) : (s.clearBusy).err = s.err := rfl
@[simp] theorem State.clearBusy_cmdLost (s : State) : (s.clearBusy).cmdLost = s.cmdLost := rfl
@[simp] theorem State.clearBusy_outCount (s : State) : (s.clearBusy).outCount = s.outCount := rfl
@[simp] theorem State.clearBusy_inBuf (s : State) : (s.clearBusy).inBuf = s.inBuf := rfl
@[simp] theorem State.clearBusy_outBuf (s : State) : (s.clearBusy).outBuf = s.outBuf := rfl
@[simp] theorem State.clearBusy_events (s : State) : (s.clearBusy).events = s.events := rfl
@[simp] theorem State.clearBusy_replies (s : State) : (s.clearBusy).replies = s.replies := rfl
@[simp] theorem State.clearBusy_draws (s : State) : (s.clearBusy).draws = s.draws := rfl
@[simp] theorem State.clearBusy_place (s : State) : (s.clearBusy).place = s.place := rfl

/-! ### `accept`: an accepted CMD write -/

@[simp] theorem State.accept_K (s : State) (w : Word) : (s.accept w).K = s.K := rfl
@[simp] theorem State.accept_V (s : State) (w : Word) : (s.accept w).V = s.V := rfl
@[simp] theorem State.accept_ctr (s : State) (w : Word) : (s.accept w).ctr = s.ctr := rfl
@[simp] theorem State.accept_strength (s : State) (w : Word) : (s.accept w).strength = s.strength := rfl
@[simp] theorem State.accept_inst (s : State) (w : Word) : (s.accept w).inst = s.inst := rfl
@[simp] theorem State.accept_busy (s : State) (w : Word) : (s.accept w).busy = true := rfl
@[simp] theorem State.accept_cmd (s : State) (w : Word) : (s.accept w).cmd = w := rfl
@[simp] theorem State.accept_err (s : State) (w : Word) : (s.accept w).err = s.err := rfl
@[simp] theorem State.accept_cmdLost (s : State) (w : Word) : (s.accept w).cmdLost = s.cmdLost := rfl
@[simp] theorem State.accept_outCount (s : State) (w : Word) : (s.accept w).outCount = s.outCount := rfl
@[simp] theorem State.accept_inBuf (s : State) (w : Word) : (s.accept w).inBuf = s.inBuf := rfl
@[simp] theorem State.accept_outBuf (s : State) (w : Word) : (s.accept w).outBuf = s.outBuf := rfl
@[simp] theorem State.accept_events (s : State) (w : Word) : (s.accept w).events = s.events := rfl
@[simp] theorem State.accept_replies (s : State) (w : Word) : (s.accept w).replies = s.replies := rfl
@[simp] theorem State.accept_draws (s : State) (w : Word) : (s.accept w).draws = s.draws := rfl
@[simp] theorem State.accept_place (s : State) (w : Word) : (s.accept w).place = s.place := rfl

/-! ### `drop`: a dropped CMD write -/

@[simp] theorem State.drop_K (s : State) : (s.drop).K = s.K := rfl
@[simp] theorem State.drop_V (s : State) : (s.drop).V = s.V := rfl
@[simp] theorem State.drop_ctr (s : State) : (s.drop).ctr = s.ctr := rfl
@[simp] theorem State.drop_strength (s : State) : (s.drop).strength = s.strength := rfl
@[simp] theorem State.drop_inst (s : State) : (s.drop).inst = s.inst := rfl
@[simp] theorem State.drop_busy (s : State) : (s.drop).busy = s.busy := rfl
@[simp] theorem State.drop_cmd (s : State) : (s.drop).cmd = s.cmd := rfl
@[simp] theorem State.drop_err (s : State) : (s.drop).err = s.err := rfl
@[simp] theorem State.drop_cmdLost (s : State) : (s.drop).cmdLost = true := rfl
@[simp] theorem State.drop_outCount (s : State) : (s.drop).outCount = s.outCount := rfl
@[simp] theorem State.drop_inBuf (s : State) : (s.drop).inBuf = s.inBuf := rfl
@[simp] theorem State.drop_outBuf (s : State) : (s.drop).outBuf = s.outBuf := rfl
@[simp] theorem State.drop_events (s : State) : (s.drop).events = s.events := rfl
@[simp] theorem State.drop_replies (s : State) : (s.drop).replies = s.replies := rfl
@[simp] theorem State.drop_draws (s : State) : (s.drop).draws = s.draws := rfl
@[simp] theorem State.drop_place (s : State) : (s.drop).place = s.place := rfl

/-! ### `withEvents`: moving past an event -/

@[simp] theorem State.withEvents_K (s : State) (es : List Event) : (s.withEvents es).K = s.K := rfl
@[simp] theorem State.withEvents_V (s : State) (es : List Event) : (s.withEvents es).V = s.V := rfl
@[simp] theorem State.withEvents_ctr (s : State) (es : List Event) : (s.withEvents es).ctr = s.ctr := rfl
@[simp] theorem State.withEvents_strength (s : State) (es : List Event) : (s.withEvents es).strength = s.strength := rfl
@[simp] theorem State.withEvents_inst (s : State) (es : List Event) : (s.withEvents es).inst = s.inst := rfl
@[simp] theorem State.withEvents_busy (s : State) (es : List Event) : (s.withEvents es).busy = s.busy := rfl
@[simp] theorem State.withEvents_cmd (s : State) (es : List Event) : (s.withEvents es).cmd = s.cmd := rfl
@[simp] theorem State.withEvents_err (s : State) (es : List Event) : (s.withEvents es).err = s.err := rfl
@[simp] theorem State.withEvents_cmdLost (s : State) (es : List Event) : (s.withEvents es).cmdLost = s.cmdLost := rfl
@[simp] theorem State.withEvents_outCount (s : State) (es : List Event) : (s.withEvents es).outCount = s.outCount := rfl
@[simp] theorem State.withEvents_inBuf (s : State) (es : List Event) : (s.withEvents es).inBuf = s.inBuf := rfl
@[simp] theorem State.withEvents_outBuf (s : State) (es : List Event) : (s.withEvents es).outBuf = s.outBuf := rfl
@[simp] theorem State.withEvents_events (s : State) (es : List Event) : (s.withEvents es).events = es := rfl
@[simp] theorem State.withEvents_replies (s : State) (es : List Event) : (s.withEvents es).replies = s.replies := rfl
@[simp] theorem State.withEvents_draws (s : State) (es : List Event) : (s.withEvents es).draws = s.draws := rfl
@[simp] theorem State.withEvents_place (s : State) (es : List Event) : (s.withEvents es).place = s.place := rfl

/-! ### `reply`: a reply to the host -/

@[simp] theorem State.reply_K (s : State) (a : Offset) (n : Nat) (x : Word) : (s.reply a n x).K = s.K := rfl
@[simp] theorem State.reply_V (s : State) (a : Offset) (n : Nat) (x : Word) : (s.reply a n x).V = s.V := rfl
@[simp] theorem State.reply_ctr (s : State) (a : Offset) (n : Nat) (x : Word) : (s.reply a n x).ctr = s.ctr := rfl
@[simp] theorem State.reply_strength (s : State) (a : Offset) (n : Nat) (x : Word) : (s.reply a n x).strength = s.strength := rfl
@[simp] theorem State.reply_inst (s : State) (a : Offset) (n : Nat) (x : Word) : (s.reply a n x).inst = s.inst := rfl
@[simp] theorem State.reply_busy (s : State) (a : Offset) (n : Nat) (x : Word) : (s.reply a n x).busy = s.busy := rfl
@[simp] theorem State.reply_cmd (s : State) (a : Offset) (n : Nat) (x : Word) : (s.reply a n x).cmd = s.cmd := rfl
@[simp] theorem State.reply_err (s : State) (a : Offset) (n : Nat) (x : Word) : (s.reply a n x).err = s.err := rfl
@[simp] theorem State.reply_cmdLost (s : State) (a : Offset) (n : Nat) (x : Word) : (s.reply a n x).cmdLost = s.cmdLost := rfl
@[simp] theorem State.reply_outCount (s : State) (a : Offset) (n : Nat) (x : Word) : (s.reply a n x).outCount = s.outCount := rfl
@[simp] theorem State.reply_inBuf (s : State) (a : Offset) (n : Nat) (x : Word) : (s.reply a n x).inBuf = s.inBuf := rfl
@[simp] theorem State.reply_outBuf (s : State) (a : Offset) (n : Nat) (x : Word) : (s.reply a n x).outBuf = s.outBuf := rfl
@[simp] theorem State.reply_events (s : State) (a : Offset) (n : Nat) (x : Word) : (s.reply a n x).events = s.events := rfl
@[simp] theorem State.reply_replies (s : State) (a : Offset) (n : Nat) (x : Word) : (s.reply a n x).replies = ⟨a, n, x⟩ :: s.replies := rfl
@[simp] theorem State.reply_draws (s : State) (a : Offset) (n : Nat) (x : Word) : (s.reply a n x).draws = s.draws := rfl
@[simp] theorem State.reply_place (s : State) (a : Offset) (n : Nat) (x : Word) : (s.reply a n x).place = s.place := rfl

/-! ### `nextDraw`: the next draw -/

@[simp] theorem State.nextDraw_K (s : State) : (s.nextDraw).K = s.K := rfl
@[simp] theorem State.nextDraw_V (s : State) : (s.nextDraw).V = s.V := rfl
@[simp] theorem State.nextDraw_ctr (s : State) : (s.nextDraw).ctr = s.ctr := rfl
@[simp] theorem State.nextDraw_strength (s : State) : (s.nextDraw).strength = s.strength := rfl
@[simp] theorem State.nextDraw_inst (s : State) : (s.nextDraw).inst = s.inst := rfl
@[simp] theorem State.nextDraw_busy (s : State) : (s.nextDraw).busy = s.busy := rfl
@[simp] theorem State.nextDraw_cmd (s : State) : (s.nextDraw).cmd = s.cmd := rfl
@[simp] theorem State.nextDraw_err (s : State) : (s.nextDraw).err = s.err := rfl
@[simp] theorem State.nextDraw_cmdLost (s : State) : (s.nextDraw).cmdLost = s.cmdLost := rfl
@[simp] theorem State.nextDraw_outCount (s : State) : (s.nextDraw).outCount = s.outCount := rfl
@[simp] theorem State.nextDraw_inBuf (s : State) : (s.nextDraw).inBuf = s.inBuf := rfl
@[simp] theorem State.nextDraw_outBuf (s : State) : (s.nextDraw).outBuf = s.outBuf := rfl
@[simp] theorem State.nextDraw_events (s : State) : (s.nextDraw).events = s.events := rfl
@[simp] theorem State.nextDraw_replies (s : State) : (s.nextDraw).replies = s.replies := rfl
@[simp] theorem State.nextDraw_draws (s : State) : (s.nextDraw).draws = s.draws + 1 := rfl
@[simp] theorem State.nextDraw_place (s : State) : (s.nextDraw).place = s.place := rfl

/-! ### `atPlace`: the block as one instance of a system -/

@[simp] theorem State.atPlace_K (s : State) (j : Nat) : (s.atPlace j).K = s.K := rfl
@[simp] theorem State.atPlace_V (s : State) (j : Nat) : (s.atPlace j).V = s.V := rfl
@[simp] theorem State.atPlace_ctr (s : State) (j : Nat) : (s.atPlace j).ctr = s.ctr := rfl
@[simp] theorem State.atPlace_strength (s : State) (j : Nat) : (s.atPlace j).strength = s.strength := rfl
@[simp] theorem State.atPlace_inst (s : State) (j : Nat) : (s.atPlace j).inst = s.inst := rfl
@[simp] theorem State.atPlace_busy (s : State) (j : Nat) : (s.atPlace j).busy = s.busy := rfl
@[simp] theorem State.atPlace_cmd (s : State) (j : Nat) : (s.atPlace j).cmd = s.cmd := rfl
@[simp] theorem State.atPlace_err (s : State) (j : Nat) : (s.atPlace j).err = s.err := rfl
@[simp] theorem State.atPlace_cmdLost (s : State) (j : Nat) : (s.atPlace j).cmdLost = s.cmdLost := rfl
@[simp] theorem State.atPlace_outCount (s : State) (j : Nat) : (s.atPlace j).outCount = s.outCount := rfl
@[simp] theorem State.atPlace_inBuf (s : State) (j : Nat) : (s.atPlace j).inBuf = s.inBuf := rfl
@[simp] theorem State.atPlace_outBuf (s : State) (j : Nat) : (s.atPlace j).outBuf = s.outBuf := rfl
@[simp] theorem State.atPlace_events (s : State) (j : Nat) : (s.atPlace j).events = s.events := rfl
@[simp] theorem State.atPlace_replies (s : State) (j : Nat) : (s.atPlace j).replies = s.replies := rfl
@[simp] theorem State.atPlace_draws (s : State) (j : Nat) : (s.atPlace j).draws = s.draws := rfl
@[simp] theorem State.atPlace_place (s : State) (j : Nat) : (s.atPlace j).place = j := rfl

/-! ### `resetBlock`: reset (70_reset_and_hazards.md R202) -/

@[simp] theorem State.resetBlock_K (s : State) : s.resetBlock.K = State.reset.K := rfl
@[simp] theorem State.resetBlock_V (s : State) : s.resetBlock.V = State.reset.V := rfl
@[simp] theorem State.resetBlock_ctr (s : State) : s.resetBlock.ctr = State.reset.ctr := rfl
@[simp] theorem State.resetBlock_strength (s : State) : s.resetBlock.strength = State.reset.strength := rfl
@[simp] theorem State.resetBlock_inst (s : State) : s.resetBlock.inst = State.reset.inst := rfl
@[simp] theorem State.resetBlock_busy (s : State) : s.resetBlock.busy = State.reset.busy := rfl
@[simp] theorem State.resetBlock_cmd (s : State) : s.resetBlock.cmd = State.reset.cmd := rfl
@[simp] theorem State.resetBlock_err (s : State) : s.resetBlock.err = State.reset.err := rfl
@[simp] theorem State.resetBlock_cmdLost (s : State) : s.resetBlock.cmdLost = State.reset.cmdLost := rfl
@[simp] theorem State.resetBlock_outCount (s : State) : s.resetBlock.outCount = State.reset.outCount := rfl
@[simp] theorem State.resetBlock_inBuf (s : State) : s.resetBlock.inBuf = State.reset.inBuf := rfl
@[simp] theorem State.resetBlock_outBuf (s : State) : s.resetBlock.outBuf = State.reset.outBuf := rfl
@[simp] theorem State.resetBlock_events (s : State) : s.resetBlock.events = s.events := rfl
@[simp] theorem State.resetBlock_replies (s : State) : s.resetBlock.replies = s.replies := rfl
@[simp] theorem State.resetBlock_draws (s : State) : s.resetBlock.draws = s.draws := rfl
@[simp] theorem State.resetBlock_place (s : State) : s.resetBlock.place = s.place := rfl

/-! ### `writeStatus`: a STATUS write (10_state.md R34) -/

@[simp] theorem State.writeStatus_K (s : State) (w : Word) : (s.writeStatus w).K = s.K := by
  unfold State.writeStatus; split <;> rfl
@[simp] theorem State.writeStatus_V (s : State) (w : Word) : (s.writeStatus w).V = s.V := by
  unfold State.writeStatus; split <;> rfl
@[simp] theorem State.writeStatus_ctr (s : State) (w : Word) : (s.writeStatus w).ctr = s.ctr := by
  unfold State.writeStatus; split <;> rfl
@[simp] theorem State.writeStatus_strength (s : State) (w : Word) : (s.writeStatus w).strength = s.strength := by
  unfold State.writeStatus; split <;> rfl
@[simp] theorem State.writeStatus_inst (s : State) (w : Word) : (s.writeStatus w).inst = s.inst := by
  unfold State.writeStatus; split <;> rfl
@[simp] theorem State.writeStatus_busy (s : State) (w : Word) : (s.writeStatus w).busy = s.busy := by
  unfold State.writeStatus; split <;> rfl
@[simp] theorem State.writeStatus_cmd (s : State) (w : Word) : (s.writeStatus w).cmd = s.cmd := by
  unfold State.writeStatus; split <;> rfl
@[simp] theorem State.writeStatus_err (s : State) (w : Word) : (s.writeStatus w).err = s.err := by
  unfold State.writeStatus; split <;> rfl
@[simp] theorem State.writeStatus_outCount (s : State) (w : Word) : (s.writeStatus w).outCount = s.outCount := by
  unfold State.writeStatus; split <;> rfl
@[simp] theorem State.writeStatus_inBuf (s : State) (w : Word) : (s.writeStatus w).inBuf = s.inBuf := by
  unfold State.writeStatus; split <;> rfl
@[simp] theorem State.writeStatus_outBuf (s : State) (w : Word) : (s.writeStatus w).outBuf = s.outBuf := by
  unfold State.writeStatus; split <;> rfl
@[simp] theorem State.writeStatus_events (s : State) (w : Word) : (s.writeStatus w).events = s.events := by
  unfold State.writeStatus; split <;> rfl
@[simp] theorem State.writeStatus_replies (s : State) (w : Word) : (s.writeStatus w).replies = s.replies := by
  unfold State.writeStatus; split <;> rfl
@[simp] theorem State.writeStatus_draws (s : State) (w : Word) : (s.writeStatus w).draws = s.draws := by
  unfold State.writeStatus; split <;> rfl
@[simp] theorem State.writeStatus_place (s : State) (w : Word) : (s.writeStatus w).place = s.place := by
  unfold State.writeStatus; split <;> rfl

/-- A STATUS write clears CMD_LOST exactly when bit 2 is set. -/
@[simp] theorem State.writeStatus_cmdLost (s : State) (w : Word) :
    (s.writeStatus w).cmdLost = (s.cmdLost && !w.getLsbD 2) := by
  unfold State.writeStatus; split <;> simp_all

/-! ### `issue`: a CMD write (20_memory.md R60, R61) -/

@[simp] theorem State.issue_K (s : State) (w : Word) : (s.issue w).K = s.K := by
  unfold State.issue; split <;> rfl
@[simp] theorem State.issue_V (s : State) (w : Word) : (s.issue w).V = s.V := by
  unfold State.issue; split <;> rfl
@[simp] theorem State.issue_ctr (s : State) (w : Word) : (s.issue w).ctr = s.ctr := by
  unfold State.issue; split <;> rfl
@[simp] theorem State.issue_strength (s : State) (w : Word) : (s.issue w).strength = s.strength := by
  unfold State.issue; split <;> rfl
@[simp] theorem State.issue_inst (s : State) (w : Word) : (s.issue w).inst = s.inst := by
  unfold State.issue; split <;> rfl
@[simp] theorem State.issue_err (s : State) (w : Word) : (s.issue w).err = s.err := by
  unfold State.issue; split <;> rfl
@[simp] theorem State.issue_outCount (s : State) (w : Word) : (s.issue w).outCount = s.outCount := by
  unfold State.issue; split <;> rfl
@[simp] theorem State.issue_inBuf (s : State) (w : Word) : (s.issue w).inBuf = s.inBuf := by
  unfold State.issue; split <;> rfl
@[simp] theorem State.issue_outBuf (s : State) (w : Word) : (s.issue w).outBuf = s.outBuf := by
  unfold State.issue; split <;> rfl
@[simp] theorem State.issue_events (s : State) (w : Word) : (s.issue w).events = s.events := by
  unfold State.issue; split <;> rfl
@[simp] theorem State.issue_replies (s : State) (w : Word) : (s.issue w).replies = s.replies := by
  unfold State.issue; split <;> rfl
@[simp] theorem State.issue_draws (s : State) (w : Word) : (s.issue w).draws = s.draws := by
  unfold State.issue; split <;> rfl
@[simp] theorem State.issue_place (s : State) (w : Word) : (s.issue w).place = s.place := by
  unfold State.issue; split <;> rfl

/-- A CMD write always leaves the block busy: it was, or the word is accepted. -/
@[simp] theorem State.issue_busy (s : State) (w : Word) : (s.issue w).busy = true := by
  unfold State.issue; split <;> simp_all

/-- A CMD write while busy is dropped. -/
theorem State.issue_of_busy (s : State) (w : Word) (h : s.busy = true) : s.issue w = s.drop := by
  simp [State.issue, h]

/-- A CMD write while idle is accepted. -/
theorem State.issue_of_idle (s : State) (w : Word) (h : s.busy = false) : s.issue w = s.accept w := by
  simp [State.issue, h]

end Sys2Proof.Machine
end

