-- ==== Sys2Proof/Laws/Bus.lean ====
section
/-! SUPPORT. What a host access can do. -/

namespace Sys2Proof.Machine

/-- Everything a read can do: a reply, and a draw when it is an OUT_BUF read while busy. -/
theorem memRead_eq (a : Offset) (n : Nat) (s : State) :
    memRead a n s =
      { s with
        replies := ⟨a, n, readValue s a n⟩ :: s.replies
        draws := if readDraws s a then s.draws + 1 else s.draws } := by
  unfold memRead
  cases h : readDraws s a <;> simp [State.reply, State.nextDraw]

/-- Everything a write can do: issue or drop a command, clear CMD_LOST, write IN_BUF, or nothing. -/
theorem memWrite_cases (a : Offset) (n : Nat) (v : Word) (s : State) :
    (regionOf a.toNat = .cmd ∧ memWrite a n v s = s.issue v) ∨
    (regionOf a.toNat = .status ∧ memWrite a n v s = s.writeStatus v) ∨
    (regionOf a.toNat = .inBuf ∧
      memWrite a n v s = { s with inBuf := Memory.writeBytes s.inBuf (inBufIndex a) (laneBytes n v) }) ∨
    (regionOf a.toNat ≠ .cmd ∧ regionOf a.toNat ≠ .status ∧ regionOf a.toNat ≠ .inBuf ∧ memWrite a n v s = s) := by
  unfold memWrite
  cases h : regionOf a.toNat <;> simp

/-- The width and the alignment of an access that is not refused. -/
theorem refusedShape_none {a : Offset} {n : Nat} (h : refusedShape a n = none) :
    (n = 1 ∨ n = 2 ∨ n = 4) ∧ a.toNat % n = 0 ∧ regionOf a.toNat ≠ .reserved ∧
      (regionOf a.toNat = .inBuf ∨ regionOf a.toNat = .outBuf ∨ n = 4) := by
  unfold refusedShape at h
  split at h
  · simp at h
  · rename_i hn
    split at h
    · simp at h
    · rename_i ha
      refine ⟨by simp at hn; omega, by simpa using ha, ?_, ?_⟩
      · intro hr; simp [hr] at h
      · cases hr : regionOf a.toNat <;> simp_all

/-- Everything a host access can do when the block does not refuse it. -/
theorem hostAccess_cases {acc : Access} {s t : State} (h : hostAccess acc s = .next t) :
    refused s acc = none ∧
    ((∃ a n, acc = .read a n ∧
        t = { s with
              replies := ⟨a, n, readValue s a n⟩ :: s.replies
              draws := if readDraws s a then s.draws + 1 else s.draws }) ∨
     (∃ a n v, acc = .write a n v ∧
        ((regionOf a.toNat = .cmd ∧ t = s.issue v) ∨
         (regionOf a.toNat = .status ∧ t = s.writeStatus v) ∨
         (regionOf a.toNat = .inBuf ∧ s.busy = false ∧
            t = { s with inBuf := Memory.writeBytes s.inBuf (inBufIndex a) (laneBytes n v) })))) := by
  unfold hostAccess at h
  cases hr : refused s acc with
  | some why => simp [hr] at h
  | none =>
    rw [hr] at h
    have ht : perform acc s = t := by simpa using h
    refine ⟨rfl, ?_⟩
    cases acc with
    | read a n => exact .inl ⟨a, n, rfl, by rw [← ht]; exact memRead_eq a n s⟩
    | write a n v =>
      refine .inr ⟨a, n, v, rfl, ?_⟩
      have hw : refusedShape a n = none ∧ refusedWrite s.busy a = none := by
        simpa [refused] using hr
      have ht' : memWrite a n v s = t := ht
      rcases memWrite_cases a n v s with ⟨h1, h2⟩ | ⟨h1, h2⟩ | ⟨h1, h2⟩ | ⟨h1, h2, h3, _⟩
      · exact .inl ⟨h1, by rw [← ht', h2]⟩
      · exact .inr (.inl ⟨h1, by rw [← ht', h2]⟩)
      · refine .inr (.inr ⟨h1, ?_, by rw [← ht', h2]⟩)
        have h3 := hw.2
        cases hb : s.busy with
        | false => rfl
        | true => simp [refusedWrite, h1, hb] at h3
      · exfalso
        obtain ⟨h4, h5⟩ := hw
        have h6 := (refusedShape_none h4).2.2.1
        unfold refusedWrite at h5
        cases hreg : regionOf a.toNat <;> simp_all

/-- The lanes of a write are as many as its width. -/
@[simp] theorem length_laneBytes (n : Nat) (v : Word) : (laneBytes n v).length = n := by simp [laneBytes]

/-- The region of an offset is IN_BUF exactly when the offset lies in its range (20_memory.md R51). -/
theorem regionOf_eq_inBuf {a : Nat} : regionOf a = .inBuf ↔ 0x100 ≤ a ∧ a < 0x200 := by
  unfold regionOf
  repeat' split
  all_goals simp
  all_goals omega

/-- The region of an offset is OUT_BUF exactly when the offset lies in its range (20_memory.md R51). -/
theorem regionOf_eq_outBuf {a : Nat} : regionOf a = .outBuf ↔ 0x400 ≤ a ∧ a < 0x800 := by
  unfold regionOf
  repeat' split
  all_goals simp
  all_goals omega

/-- The region of an offset is CMD exactly when the offset lies in its range (20_memory.md R51). -/
theorem regionOf_eq_cmd {a : Nat} : regionOf a = .cmd ↔ a < 0x004 := by
  unfold regionOf
  repeat' split
  all_goals simp
  all_goals omega

/-- The region of an offset is STATUS exactly when the offset lies in its range (20_memory.md R51). -/
theorem regionOf_eq_status {a : Nat} : regionOf a = .status ↔ 0x004 ≤ a ∧ a < 0x008 := by
  unfold regionOf
  repeat' split
  all_goals simp
  all_goals omega

/-- The region of an offset is OUT_COUNT exactly when the offset lies in its range (20_memory.md R51). -/
theorem regionOf_eq_outCount {a : Nat} : regionOf a = .outCount ↔ 0x008 ≤ a ∧ a < 0x00C := by
  unfold regionOf
  repeat' split
  all_goals simp
  all_goals omega

/-- The reserved offsets (20_memory.md R51). -/
theorem regionOf_eq_reserved {a : Nat} :
    regionOf a = .reserved ↔ (0x00C ≤ a ∧ a < 0x100) ∨ (0x200 ≤ a ∧ a < 0x400) ∨ 0x800 ≤ a := by
  unfold regionOf
  repeat' split
  all_goals simp
  all_goals omega

/-- Every byte of an aligned access of a legal width lies in one region: R55.7 follows from R55.1 and R55.2. -/
theorem regionOf_lane {x n : Nat} (hn : n = 1 ∨ n = 2 ∨ n = 4) (ha : x % n = 0) {k : Nat} (hk : k < n) :
    regionOf (x + k) = regionOf x := by
  have h : ∀ c, c % 4 = 0 → (x + k < c ↔ x < c) := by
    intro c hc
    rcases hn with rfl | rfl | rfl <;> omega
  unfold regionOf
  simp only [h 0x004 rfl, h 0x008 rfl, h 0x00C rfl, h 0x100 rfl, h 0x200 rfl, h 0x400 rfl, h 0x800 rfl]

/-- Exactly which shapes of an access R55.1 to R55.4 let pass. -/
theorem refusedShape_eq_none_iff (a : Offset) (n : Nat) :
    refusedShape a n = none ↔
      (n = 1 ∨ n = 2 ∨ n = 4) ∧ a.toNat % n = 0 ∧ regionOf a.toNat ≠ .reserved ∧ (a.toNat < 0x00C → n = 4) := by
  constructor
  · intro h
    obtain ⟨h1, h2, h3, h4⟩ := refusedShape_none h
    refine ⟨h1, h2, h3, fun h5 => ?_⟩
    rw [regionOf_eq_inBuf, regionOf_eq_outBuf] at h4
    omega
  · rintro ⟨h1, h2, h3, h4⟩
    have h5 : regionOf a.toNat = .inBuf ∨ regionOf a.toNat = .outBuf ∨ n = 4 := by
      by_cases h : a.toNat < 0x00C
      · exact .inr (.inr (h4 h))
      · simp only [ne_eq, regionOf_eq_reserved] at h3
        rw [regionOf_eq_inBuf, regionOf_eq_outBuf]
        omega
    unfold refusedShape
    rw [if_neg (by simp; omega), if_neg (by omega)]
    cases hr : regionOf a.toNat <;> simp_all

/-- Byte `k` of a write's lanes. -/
theorem getD_laneBytes {n k : Nat} (v : Word) (hk : k < n) : (laneBytes n v).getD k 0 = v.extractLsb' (8 * k) 8 := by
  simp [laneBytes, List.getD, hk]

/-- The lanes of a word, put together, are its low bits. -/
theorem lanes_sum (n x : Nat) :
    ((List.range n).map fun k => x / 2 ^ (8 * k) % 256 * 2 ^ (8 * k)).sum = x % 2 ^ (8 * n) := by
  induction n with
  | zero => simp [Nat.mod_one]
  | succ n ih =>
    rw [List.range_succ, List.map_append, List.sum_append, ih, Nat.mul_succ, Nat.pow_add, Nat.mod_mul]
    simp [Nat.mul_comm]

/-- The value of at most four lanes is below 2^(8n), and one more lane below it shifts it by a byte. -/
theorem toNat_lanesValue_cons {b : Byte} {bs : Bytes} (h : bs.length ≤ 3) :
    (lanesValue bs).toNat < 2 ^ (8 * bs.length) →
      (lanesValue (b :: bs)).toNat = b.toNat + 2 ^ 8 * (lanesValue bs).toNat := by
  intro hv
  have hp : 2 ^ (8 * bs.length) ≤ 2 ^ 24 := Nat.pow_le_pow_right (by decide) (by omega)
  have hb := b.isLt
  simp only [lanesValue, BitVec.toNat_or, BitVec.toNat_shiftLeft, BitVec.toNat_setWidth]
  rw [Nat.mod_eq_of_lt (by omega : b.toNat < 2 ^ 32), Nat.shiftLeft_eq, Nat.mod_eq_of_lt (by omega), Nat.or_comm,
    ← Nat.shiftLeft_eq, ← Nat.shiftLeft_add_eq_or_of_lt hb, Nat.shiftLeft_eq]
  omega

/-- The value of at most four lanes: each byte in its place (20_memory.md R58). -/
theorem toNat_lanesValue (bs : Bytes) (h : bs.length ≤ 4) :
    (lanesValue bs).toNat < 2 ^ (8 * bs.length) ∧
      (lanesValue bs).toNat = ((List.range bs.length).map fun k => (bs.getD k 0).toNat * 2 ^ (8 * k)).sum := by
  induction bs with
  | nil => simp [lanesValue]
  | cons b bs ih =>
    simp only [List.length_cons] at h
    obtain ⟨h1, h2⟩ := ih (by omega)
    have hb := b.isLt
    have e := toNat_lanesValue_cons (b := b) (by omega) h1
    have shift : ∀ l : List Nat,
        2 ^ 8 * (l.map fun k => (bs.getD k 0).toNat * 2 ^ (8 * k)).sum =
          (l.map ((fun k => ((b :: bs).getD k 0).toNat * 2 ^ (8 * k)) ∘ Nat.succ)).sum := by
      intro l
      induction l with
      | nil => rfl
      | cons a l ihl =>
        have hstep : 2 ^ 8 * ((bs.getD a 0).toNat * 2 ^ (8 * a)) =
            ((b :: bs).getD (a + 1) 0).toNat * 2 ^ (8 * (a + 1)) := by
          rw [List.getD_cons_succ, Nat.mul_succ, Nat.pow_add, Nat.mul_left_comm, Nat.mul_comm (2 ^ 8)]
        rw [List.map_cons, List.sum_cons, List.map_cons, List.sum_cons, Nat.mul_add, ihl, hstep]
        rfl
    constructor
    · rw [e, List.length_cons, Nat.mul_succ, Nat.pow_add]
      omega
    · rw [e, h2, List.length_cons, List.range_succ_eq_map, List.map_cons, List.sum_cons, List.map_map, shift]
      simp

/-- The value of a slice's lanes. -/
theorem toNat_lanesValue_slice (m : Memory) (i n : Nat) (h : n ≤ 4) :
    (lanesValue (Memory.slice m i n)).toNat =
      ((List.range n).map fun k => (Memory.read m (i + k)).toNat * 2 ^ (8 * k)).sum := by
  rw [(toNat_lanesValue _ (by simpa using h)).2, Memory.length_slice]
  refine congrArg List.sum (List.map_congr_left ?_)
  intro k hk
  rw [Memory.getD_slice _ _ _ _ (List.mem_range.1 hk)]

/-- A write to IN_BUF that is not refused stays inside the buffer. -/
theorem inBuf_write_fits {a : Offset} {n : Nat} (h : refusedShape a n = none) (hr : regionOf a.toNat = .inBuf) :
    inBufIndex a + n ≤ 256 := by
  obtain ⟨hn, ha, _, _⟩ := refusedShape_none h
  obtain ⟨h1, h2⟩ := regionOf_eq_inBuf.1 hr
  unfold inBufIndex
  rcases hn with rfl | rfl | rfl <;> omega

/-- A host access leaves the events to come as they are. -/
theorem hostAccess_events {acc : Access} {s t : State} (h : hostAccess acc s = .next t) : t.events = s.events := by
  obtain ⟨_, ⟨a, n, -, rfl⟩ | ⟨a, n, v, -, ⟨-, rfl⟩ | ⟨-, rfl⟩ | ⟨-, -, rfl⟩⟩⟩ := hostAccess_cases h
  · rfl
  · unfold State.issue
    split <;> rfl
  · unfold State.writeStatus
    split <;> rfl
  · rfl

end Sys2Proof.Machine
end

