-- ==== Sys2Proof/Laws/Decode.lean ====
section
/-! SUPPORT. The fields of a command word as numbers. -/

namespace Sys2Proof

theorem opField_eq (w : Word) : opField w = w.toNat % 2 ^ 4 := by
  simp [opField, BitVec.extractLsb'_toNat]

theorem strengthField_eq (w : Word) : strengthField w = w.toNat / 2 ^ 4 % 2 ^ 9 := by
  simp only [strengthField, BitVec.extractLsb'_toNat, Nat.shiftRight_eq_div_pow]

theorem elenField_eq (w : Word) : elenField w = w.toNat / 2 ^ 13 % 2 ^ 8 := by
  simp only [elenField, BitVec.extractLsb'_toNat, Nat.shiftRight_eq_div_pow]

theorem plenField_eq (w : Word) : plenField w = w.toNat / 2 ^ 21 % 2 ^ 8 := by
  simp only [plenField, BitVec.extractLsb'_toNat, Nat.shiftRight_eq_div_pow]

theorem olenField_eq (w : Word) : olenField w = w.toNat / 2 ^ 13 % 2 ^ 16 := by
  simp only [olenField, BitVec.extractLsb'_toNat, Nat.shiftRight_eq_div_pow]

theorem rsvField_eq (w : Word) : rsvField w = w.toNat / 2 ^ 29 := by
  have := w.isLt
  simp only [rsvField, BitVec.extractLsb'_toNat, Nat.shiftRight_eq_div_pow]
  omega

/-- The word of format E is the sum of its fields, each in its place (30_encoding.md R81). -/
theorem toNat_encE {op s e p : Nat} (hop : op < 2 ^ 4) (hs : s < 2 ^ 9) (he : e < 2 ^ 8) (hp : p < 2 ^ 8) :
    (encE op s e p).toNat = op + s * 2 ^ 4 + e * 2 ^ 13 + p * 2 ^ 21 ∧
      (encE op s e p).toNat = op ||| s <<< 4 ||| e <<< 13 ||| p <<< 21 := by
  have h1 : op ||| s <<< 4 = op + s * 2 ^ 4 := by
    rw [Nat.or_comm, ← Nat.shiftLeft_add_eq_or_of_lt hop, Nat.shiftLeft_eq]
    omega
  have h2 : op ||| s <<< 4 ||| e <<< 13 = op + s * 2 ^ 4 + e * 2 ^ 13 := by
    rw [h1, Nat.or_comm, ← Nat.shiftLeft_add_eq_or_of_lt (by omega), Nat.shiftLeft_eq]
    omega
  have h3 : op ||| s <<< 4 ||| e <<< 13 ||| p <<< 21 = op + s * 2 ^ 4 + e * 2 ^ 13 + p * 2 ^ 21 := by
    rw [h2, Nat.or_comm, ← Nat.shiftLeft_add_eq_or_of_lt (by omega), Nat.shiftLeft_eq]
    omega
  have h4 : (encE op s e p).toNat = op ||| s <<< 4 ||| e <<< 13 ||| p <<< 21 := by
    rw [encE, BitVec.toNat_ofNat, h3]
    omega
  exact ⟨h4.trans h3, h4⟩

/-- The word of format G is the sum of its fields, each in its place (30_encoding.md R82). -/
theorem toNat_encG {op s l : Nat} (hop : op < 2 ^ 4) (hs : s < 2 ^ 9) (hl : l < 2 ^ 16) :
    (encG op s l).toNat = op + s * 2 ^ 4 + l * 2 ^ 13 ∧ (encG op s l).toNat = op ||| s <<< 4 ||| l <<< 13 := by
  have h1 : op ||| s <<< 4 = op + s * 2 ^ 4 := by
    rw [Nat.or_comm, ← Nat.shiftLeft_add_eq_or_of_lt hop, Nat.shiftLeft_eq]
    omega
  have h2 : op ||| s <<< 4 ||| l <<< 13 = op + s * 2 ^ 4 + l * 2 ^ 13 := by
    rw [h1, Nat.or_comm, ← Nat.shiftLeft_add_eq_or_of_lt (by omega), Nat.shiftLeft_eq]
    omega
  have h3 : (encG op s l).toNat = op ||| s <<< 4 ||| l <<< 13 := by
    rw [encG, BitVec.toNat_ofNat, h2]
    omega
  exact ⟨h3.trans h2, h3⟩

end Sys2Proof
end

