-- ==== Sys2Proof/Laws/Engine.lean ====
section
/-! SUPPORT. What the engine's shared operations can do: UPDATE, the output loop, and one inversion lemma for `exec`. -/

namespace Sys2Proof.Machine

/-! ## Digests and operands -/

@[simp] theorem Digest.length_toList (d : Digest) : d.toList.length = 32 := by simp

@[simp] theorem length_entropyOf (e : Nat) (s : State) : (entropyOf e s).length = e := by simp [entropyOf]

@[simp] theorem length_seedOf (e p : Nat) (s : State) : (seedOf e p s).length = e + p := by
  simp [seedOf, entropyOf, personalizerOf]

/-- The seed is one slice of IN_BUF (41_drbg_commands.md R135). -/
theorem seedOf_eq_slice (e p : Nat) (s : State) : seedOf e p s = Memory.slice s.inBuf 0 (e + p) := by
  have h := Memory.slice_append s.inBuf 0 e p
  simpa [seedOf, entropyOf, personalizerOf] using h

/-- A resolved strength is a tier. -/
theorem resolve_mem_tiers (r : Nat) : resolve r ∈ Config.tiers := by
  unfold resolve Config.tiers
  split
  · simp
  · split
    · simp
    · split <;> simp

/-- A resolved strength lies between the lowest and the highest tier. -/
theorem resolve_bounds (r : Nat) : 112 ≤ resolve r ∧ resolve r ≤ 256 := by
  unfold resolve
  split
  · omega
  · split
    · omega
    · split <;> omega

/-- The 9-bit register holds a resolved strength exactly. -/
@[simp] theorem resolve_mod (r : Nat) : resolve r % 512 = resolve r :=
  Nat.mod_eq_of_lt (by have := resolve_bounds r; omega)

/-! ## UPDATE (41_drbg_commands.md R140) -/

/-- One pass of UPDATE writes `K` and `V` and nothing else. -/
theorem updatePass_eq (sep : Byte) (data : Bytes) (s : State) :
    updatePass sep data s = s.withKV (updatePass sep data s).K (updatePass sep data s).V := rfl

/-- UPDATE writes `K` and `V` and nothing else. -/
theorem update_eq (data : Bytes) (s : State) :
    update data s = s.withKV (update data s).K (update data s).V := by
  unfold update
  split <;> rfl

/-- What UPDATE leaves in `K` and `V` depends on `K`, `V` and the data alone. -/
theorem update_KV_congr {data : Bytes} {s t : State} (hK : s.K = t.K) (hV : s.V = t.V) :
    (update data s).K = (update data t).K ∧ (update data s).V = (update data t).V := by
  unfold update
  split <;> simp [updatePass, hK, hV]

/-- UPDATE of a state with the same `K` and `V` writes the same `K` and `V` there: it reads and writes nothing else. -/
theorem update_congr (data : Bytes) {s t : State} (hK : t.K = s.K) (hV : t.V = s.V) :
    update data t = t.withKV (update data s).K (update data s).V := by
  obtain ⟨hk, hv⟩ := update_KV_congr (data := data) hK hV
  rw [← hk, ← hv]
  exact update_eq data t

/-! ## The output loop (41_drbg_commands.md R164) -/

/-- The next output block: `HMAC(K, V)`. -/
def nextBlock (k v : Digest) : Digest := hmac k.toList v.toList

/-- The bytes of the first `n` blocks after `v`. -/
def blockBytes (k : Digest) : Nat → Digest → Bytes
  | 0, _ => []
  | n + 1, v => (nextBlock k v).toList ++ blockBytes k n (nextBlock k v)

@[simp] theorem length_blockBytes (k : Digest) (n : Nat) (v : Digest) : (blockBytes k n v).length = 32 * n := by
  induction n generalizing v with
  | zero => rfl
  | succ n ih => simp [blockBytes, ih]; omega

/-- Byte `i` of the blocks is byte `i % 32` of block `i / 32`. -/
theorem getD_blockBytes (k : Digest) (n : Nat) (v : Digest) (i : Nat) (h : i < 32 * n) :
    (blockBytes k n v).getD i 0 = ((nextBlock k)^[i / 32 + 1] v).toList.getD (i % 32) 0 := by
  induction n generalizing v i with
  | zero => omega
  | succ n ih =>
    by_cases hi : i < 32
    · have h1 : i / 32 = 0 := Nat.div_eq_of_lt hi
      have h2 : i % 32 = i := Nat.mod_eq_of_lt hi
      simp [blockBytes, List.getElem?_append, hi, h1, h2, List.getD]
    · obtain ⟨j, rfl⟩ : ∃ j, i = 32 + j := ⟨i - 32, by omega⟩
      have h1 : (32 + j) / 32 = j / 32 + 1 := by omega
      have h2 : (32 + j) % 32 = j % 32 := by omega
      have hj := ih (nextBlock k v) j (by omega)
      rw [h1, h2, Function.iterate_succ_apply]
      rw [← hj]
      simp [blockBytes, List.getElem?_append, List.getD]

/-- The loop: with enough fuel, it runs the passes that are missing and leaves the last `V` and all their bytes. -/
theorem outputLoop_eq (k : Digest) (l fuel : Nat) (v : Digest) (temp : Bytes)
    (h : (l - temp.length + 31) / 32 ≤ fuel) :
    outputLoop k l fuel v temp =
      ((nextBlock k)^[(l - temp.length + 31) / 32] v, temp ++ blockBytes k ((l - temp.length + 31) / 32) v) := by
  induction fuel generalizing v temp with
  | zero =>
    have h0 : (l - temp.length + 31) / 32 = 0 := by omega
    simp [outputLoop, h0, blockBytes]
  | succ fuel ih =>
    by_cases hl : temp.length < l
    · have hlen : (temp ++ (nextBlock k v).toList).length = temp.length + 32 := by simp
      have hn : (l - temp.length + 31) / 32 = (l - (temp.length + 32) + 31) / 32 + 1 := by omega
      have hrec := ih (nextBlock k v) (temp ++ (nextBlock k v).toList) (by rw [hlen]; omega)
      rw [hlen] at hrec
      simp only [outputLoop, hl, if_true]
      show outputLoop k l fuel (nextBlock k v) (temp ++ (nextBlock k v).toList) = _
      rw [hrec, hn]
      simp [blockBytes, Function.iterate_succ_apply]
    · have h0 : (l - temp.length + 31) / 32 = 0 := by omega
      simp [outputLoop, hl, h0, blockBytes]

/-- The loop as GENERATE starts it. -/
theorem outputLoop_start (k : Digest) (l : Nat) (v : Digest) :
    outputLoop k l l v [] = ((nextBlock k)^[(l + 31) / 32] v, blockBytes k ((l + 31) / 32) v) := by
  have h := outputLoop_eq k l l v [] (by simp; omega)
  simpa using h

/-- The output of GENERATE has the length asked for (41_drbg_commands.md R165). -/
theorem length_output (k : Digest) (l : Nat) (v : Digest) : ((outputLoop k l l v []).2.take l).length = l := by
  rw [outputLoop_start]
  simp
  omega

/-- Everything the success of GENERATE writes: `K`, `V`, `ctr`, OUT_BUF's first bytes, `outCount` and `err`. -/
theorem generateBytes_eq (l : Nat) (s : State) :
    generateBytes l s =
      { s with
        K := (update [] (s.withV (outputLoop s.K l l s.V []).1)).K
        V := (update [] (s.withV (outputLoop s.K l l s.V []).1)).V
        ctr := s.ctr + 1
        outBuf := Memory.writeBytes s.outBuf 0 ((outputLoop s.K l l s.V []).2.take l)
        outCount := BitVec.ofNat 16 l
        err := .ok } := by
  have h := length_output s.K l s.V
  have hu := update_eq [] (s.withV (outputLoop s.K l l s.V []).1)
  have hc := congrArg State.ctr hu
  simp only [State.withKV_ctr, State.withV_ctr] at hc
  simp only [generateBytes, hc]
  generalize update [] (s.withV (outputLoop s.K l l s.V []).1) = u at hu
  rw [hu]
  simp [State.deliver, State.withCtr, State.withKV, State.withV, h]

/-! ## `exec` -/

/-- The success of INSTANTIATE (41_drbg_commands.md R135). -/
def seededState (r e p : Nat) (s : State) : State :=
  ((update (seedOf e p s) (s.construct (BitVec.ofNat 9 (resolve r)))).setInst.complete .ok)

/-- The success of RESEED (41_drbg_commands.md R153). -/
def reseededState (e : Nat) (s : State) : State := ((update (entropyOf e s) s).withCtr 1).complete .ok

/-- Everything a command can do: it completes with an error code and changes nothing else, or all its checks pass and it
has its effect. -/
theorem exec_cases (i : Instr) (s : State) :
    ∃ t, exec i s = .next t ∧
      ((∃ code, code ≠ .ok ∧ t = s.complete code) ∨
       (∃ r e p, i = .instantiate r e p ∧ r ≤ 256 ∧ 8 * p ≤ 256 ∧ 3 * resolve r ≤ 2 * (8 * e) ∧ 8 * e ≤ 1000 ∧
          t = seededState r e p s) ∨
       (∃ e, i = .reseed e ∧ s.inst = true ∧ s.strength.toNat ≤ 8 * e ∧ 8 * e ≤ 1000 ∧ t = reseededState e s) ∨
       (∃ r l, i = .generate r l ∧ s.inst = true ∧ 8 * l ≤ 7500 ∧ r ≤ s.strength.toNat ∧ s.ctr.toNat < 10000 ∧
          t = generateBytes l s)) := by
  cases i with
  | instantiate r e p =>
    simp only [exec, execInstantiate, bitlen]
    by_cases h1 : r > Config.maxStrength
    · exact ⟨_, if_pos h1, .inl ⟨_, by decide, rfl⟩⟩
    by_cases h2 : 8 * p > Config.maxPersBits
    · exact ⟨_, by rw [if_neg h1, if_pos h2], .inl ⟨_, by decide, rfl⟩⟩
    by_cases h3 : 2 * (8 * e) < 3 * resolve r
    · exact ⟨_, by rw [if_neg h1, if_neg h2, if_pos h3], .inl ⟨_, by decide, rfl⟩⟩
    by_cases h4 : 8 * e > Config.maxEntropyBits
    · exact ⟨_, by rw [if_neg h1, if_neg h2, if_neg h3, if_pos h4], .inl ⟨_, by decide, rfl⟩⟩
    exact ⟨_, by rw [if_neg h1, if_neg h2, if_neg h3, if_neg h4]; rfl,
      .inr (.inl ⟨r, e, p, rfl, Nat.le_of_not_lt h1, Nat.le_of_not_lt h2, Nat.le_of_not_lt h3, Nat.le_of_not_lt h4, rfl⟩)⟩
  | reseed e =>
    simp only [exec, execReseed, bitlen]
    by_cases h1 : s.inst = false
    · exact ⟨_, if_pos h1, .inl ⟨_, by decide, rfl⟩⟩
    by_cases h2 : 8 * e < s.strength.toNat
    · exact ⟨_, by rw [if_neg h1, if_pos h2], .inl ⟨_, by decide, rfl⟩⟩
    by_cases h3 : 8 * e > Config.maxEntropyBits
    · exact ⟨_, by rw [if_neg h1, if_neg h2, if_pos h3], .inl ⟨_, by decide, rfl⟩⟩
    exact ⟨_, by rw [if_neg h1, if_neg h2, if_neg h3]; rfl,
      .inr (.inr (.inl ⟨e, rfl, by simpa using h1, Nat.le_of_not_lt h2, Nat.le_of_not_lt h3, rfl⟩))⟩
  | generate r l =>
    simp only [exec, execGenerate, bitlen]
    by_cases h1 : s.inst = false
    · exact ⟨_, if_pos h1, .inl ⟨_, by decide, rfl⟩⟩
    by_cases h2 : 8 * l > Config.maxRequestBits
    · exact ⟨_, by rw [if_neg h1, if_pos h2], .inl ⟨_, by decide, rfl⟩⟩
    by_cases h3 : r > s.strength.toNat
    · exact ⟨_, by rw [if_neg h1, if_neg h2, if_pos h3], .inl ⟨_, by decide, rfl⟩⟩
    by_cases h4 : s.ctr.toNat ≥ Config.reseedCeiling
    · exact ⟨_, by rw [if_neg h1, if_neg h2, if_neg h3, if_pos h4], .inl ⟨_, by decide, rfl⟩⟩
    exact ⟨_, by rw [if_neg h1, if_neg h2, if_neg h3, if_neg h4],
      .inr (.inr (.inr ⟨r, l, rfl, by simpa using h1, Nat.le_of_not_lt h2, Nat.le_of_not_lt h3, Nat.lt_of_not_le h4, rfl⟩))⟩

/-- The success of INSTANTIATE, field by field. -/
theorem seededState_eq (r e p : Nat) (s : State) :
    seededState r e p s =
      { s with
        K := (update (seedOf e p s) (s.construct (BitVec.ofNat 9 (resolve r)))).K
        V := (update (seedOf e p s) (s.construct (BitVec.ofNat 9 (resolve r)))).V
        ctr := 1
        strength := BitVec.ofNat 9 (resolve r)
        inst := true
        err := .ok
        outCount := 0 } := by
  unfold seededState
  rw [update_eq]
  rfl

/-- The success of RESEED, field by field. -/
theorem reseededState_eq (e : Nat) (s : State) :
    reseededState e s =
      { s with
        K := (update (entropyOf e s) s).K
        V := (update (entropyOf e s) s).V
        ctr := 1
        err := .ok
        outCount := 0 } := by
  unfold reseededState
  rw [update_eq]
  rfl

end Sys2Proof.Machine
end

