-- ==== Sys2Proof/Laws/PerInstr.lean ====
section
/-! SUPPORT. A fact about every command as a word: the bits the opcode table fixes. -/

namespace Sys2Proof.Laws.FixedBits

/-- The opcode of a command (30_encoding.md R85). -/
def opOf : Instr → Nat
  | .instantiate _ _ _ => 1
  | .reseed _ => 2
  | .generate _ _ => 3

/-- The word of a command carries its opcode in OP (30_encoding.md R85). -/
def Statement (i : Instr) : Prop := opField (encode i) = opOf i

/-- Fields that start at bit 4 or above leave the low four bits alone. -/
theorem low_or {x y : Nat} (hx : x % 16 = 0) (hy : y % 16 = 0) : (x ||| y) % 16 = 0 := by
  have h := Nat.or_mod_two_pow (a := x) (b := y) (n := 4)
  rw [show (2 : Nat) ^ 4 = 16 from rfl] at h
  rw [h, hx, hy]
  rfl

/-- A field shifted to bit 4 or above is 0 in the low four bits. -/
theorem low_shift (x n : Nat) : (x <<< (n + 4)) % 16 = 0 := by
  rw [Nat.shiftLeft_eq, Nat.pow_add, ← Nat.mul_assoc]
  exact Nat.mul_mod_left _ _

/-- The low four bits of a word made of an opcode below 16 and fields from bit 4 up are the opcode. -/
theorem opField_ofNat (op rest : Nat) (h : op < 16) (hr : rest % 16 = 0) :
    opField (BitVec.ofNat 32 (op ||| rest)) = op := by
  have h4 := Nat.or_mod_two_pow (a := op) (b := rest) (n := 4)
  rw [show (2 : Nat) ^ 4 = 16 from rfl, hr, Nat.or_zero, Nat.mod_eq_of_lt h] at h4
  simp only [opField, BitVec.extractLsb'_toNat, BitVec.toNat_ofNat, Nat.shiftRight_zero]
  omega

theorem instantiate (s e p : Nat) : Statement (.instantiate s e p) := by
  have := opField_ofNat 1 (s <<< 4 ||| e <<< 13 ||| p <<< 21) (by decide)
    (low_or (low_or (low_shift s 0) (low_shift e 9)) (low_shift p 17))
  simpa [Statement, encode, encE, opOf, Nat.or_assoc] using this

theorem reseed (e : Nat) : Statement (.reseed e) := by
  have := opField_ofNat 2 (e <<< 13) (by decide) (low_shift e 9)
  simpa [Statement, encode, encE, opOf] using this

theorem generate (s l : Nat) : Statement (.generate s l) := by
  have := opField_ofNat 3 (s <<< 4 ||| l <<< 13) (by decide) (low_or (low_shift s 0) (low_shift l 9))
  simpa [Statement, encode, encG, opOf, Nat.or_assoc] using this

end Sys2Proof.Laws.FixedBits
end

