-- ==== Sys2Proof/Laws/Step.lean ====
section
/-! SUPPORT. What one step can do: one inversion lemma, for the claims about all steps. -/

namespace Sys2Proof.Machine

/-- Everything an engine step can do: it completes with an error code, changing nothing else but `busy`, or it runs a
command whose checks all pass. -/
theorem engineStep_cases (s : State) :
    ∃ t, engineStep s = .next t ∧
      ((∃ code, code ≠ .ok ∧ t = (s.complete code).clearBusy) ∨
       (∃ r e p, decode s.cmd = .command (.instantiate r e p) ∧ t = (seededState r e p s).clearBusy) ∨
       (∃ e, decode s.cmd = .command (.reseed e) ∧ s.inst = true ∧ t = (reseededState e s).clearBusy) ∨
       (∃ r l, decode s.cmd = .command (.generate r l) ∧ s.inst = true ∧ 8 * l ≤ 7500 ∧ s.ctr.toNat < 10000 ∧
          t = (generateBytes l s).clearBusy)) := by
  unfold engineStep
  cases hd : decode s.cmd with
  | illegal why => exact ⟨_, rfl, .inl ⟨_, by decide, rfl⟩⟩
  | command i =>
    obtain ⟨t, ht, h⟩ := exec_cases i s
    refine ⟨t.clearBusy, by simp [ht, endCommand], ?_⟩
    rcases h with ⟨code, hc, rfl⟩ | ⟨r, e, p, rfl, _, _, _, _, rfl⟩ | ⟨e, rfl, hi, _, _, rfl⟩ |
      ⟨r, l, rfl, hi, hl, _, hc, rfl⟩
    · exact .inl ⟨code, hc, rfl⟩
    · exact .inr (.inl ⟨r, e, p, rfl, rfl⟩)
    · exact .inr (.inr (.inl ⟨e, rfl, hi, rfl⟩))
    · exact .inr (.inr (.inr ⟨r, l, rfl, hi, hl, hc, rfl⟩))

/-- The engine's turn always ends idle, with the host's side and the place as they were. -/
theorem engineTurn_next (s : State) :
    ∃ t, engineTurn s = .next t ∧ t.busy = false ∧ t.events = s.events ∧ t.replies = s.replies ∧ t.draws = s.draws ∧
      t.place = s.place := by
  unfold engineTurn
  cases hb : s.busy with
  | false => exact ⟨s, rfl, hb, rfl, rfl, rfl, rfl⟩
  | true =>
    obtain ⟨t, ht, h⟩ := engineStep_cases s
    refine ⟨t, by simpa using ht, ?_⟩
    rcases h with ⟨code, _, rfl⟩ | ⟨r, e, p, _, rfl⟩ | ⟨e, _, _, rfl⟩ | ⟨r, l, _, _, _, _, rfl⟩
    · exact ⟨rfl, rfl, rfl, rfl, rfl⟩
    · rw [seededState_eq]
      exact ⟨rfl, rfl, rfl, rfl, rfl⟩
    · rw [reseededState_eq]
      exact ⟨rfl, rfl, rfl, rfl, rfl⟩
    · rw [generateBytes_eq]
      exact ⟨rfl, rfl, rfl, rfl, rfl⟩

/-- Everything a step can do: nothing but move past the engine's turn when the block is idle, an engine step, a host access,
or a reset. -/
theorem step_cases {s t : State} (h : step s = .next t) :
    (s.busy = false ∧ (s.events = [] ∨ s.events.head? = some .engine) ∧ t = s.withEvents s.events.tail) ∨
    (s.busy = true ∧ (s.events = [] ∨ s.events.head? = some .engine) ∧
      engineStep (s.withEvents s.events.tail) = .next t) ∨
    (∃ acc rest, s.events = .access acc :: rest ∧ hostAccess acc (s.withEvents rest) = .next t) ∨
    (∃ rest, s.events = .reset :: rest ∧ t = (s.withEvents rest).resetBlock) := by
  unfold step nextEvent at h
  cases hev : s.events with
  | nil =>
    rw [hev] at h
    have hs : s.withEvents [] = s := by cases s; simp_all [State.withEvents]
    unfold engineTurn at h
    cases hb : s.busy with
    | false =>
      refine .inl ⟨rfl, .inl rfl, ?_⟩
      simp only [hb] at h
      simpa [hs] using h.symm
    | true =>
      refine .inr (.inl ⟨rfl, .inl rfl, ?_⟩)
      simp only [hb, if_true] at h
      simpa [hs] using h
  | cons e rest =>
    rw [hev] at h
    cases e with
    | access acc => exact .inr (.inr (.inl ⟨acc, rest, rfl, h⟩))
    | reset => exact .inr (.inr (.inr ⟨rest, rfl, by simpa [takeEvent] using h.symm⟩))
    | engine =>
      simp only [takeEvent, engineTurn, State.withEvents_busy] at h
      cases hb : s.busy with
      | false =>
        refine .inl ⟨rfl, .inr rfl, ?_⟩
        simpa [hb] using h.symm
      | true =>
        refine .inr (.inl ⟨rfl, .inr rfl, ?_⟩)
        simpa [hb] using h

/-- No step moves a block to another place. -/
theorem step_place {s t : State} (h : step s = .next t) : t.place = s.place := by
  rcases step_cases h with ⟨_, _, rfl⟩ | ⟨hb, _, he⟩ | ⟨acc, rest, _, he⟩ | ⟨rest, _, rfl⟩
  · rfl
  · obtain ⟨u, hu, _, _, _, _, hp⟩ := engineTurn_next (s.withEvents s.events.tail)
    have hut : engineTurn (s.withEvents s.events.tail) = .next t := by simpa [engineTurn, hb] using he
    have : u = t := by rw [hut] at hu; injection hu with hu; exact hu.symm
    rw [← this, hp]
    rfl
  · obtain ⟨_, ⟨a, n, -, rfl⟩ | ⟨a, n, v, -, ⟨-, rfl⟩ | ⟨-, rfl⟩ | ⟨-, -, rfl⟩⟩⟩ := hostAccess_cases he <;> simp
  · rfl

end Sys2Proof.Machine
end

