-- ==== Sys2Proof/Laws/System.lean ====
section
/-! SUPPORT. Which instance of a system a host address selects. -/

namespace Sys2Proof.Machine

/-- A window holds exactly the 4096 addresses from its base (20_memory.md R50). -/
theorem Placed.covers_iff (p : Placed) (addr : Nat) : p.covers addr = true ↔ p.base ≤ addr ∧ addr < p.base + 4096 := by
  simp [Placed.covers]

/-- The offset of an address in a window that holds it. -/
theorem Placed.toNat_offset {p : Placed} {addr : Nat} (h : p.covers addr = true) :
    (p.offset addr).toNat = addr - p.base := by
  obtain ⟨_, h2⟩ := (p.covers_iff addr).1 h
  simp only [Placed.offset, BitVec.toNat_ofNat]
  omega

/-- The instance an address selects has a window that holds it, and the offset is in that window. -/
theorem System.route_eq_some {sys : System} {addr j : Nat} {a : Offset} (h : sys.route addr = some (j, a)) :
    ∃ p, sys[j]? = some p ∧ p.covers addr = true ∧ a = p.offset addr := by
  induction sys generalizing j with
  | nil => simp [System.route] at h
  | cons p ps ih =>
    unfold System.route at h
    split at h
    · obtain ⟨rfl, rfl⟩ : 0 = j ∧ p.offset addr = a := by simpa using h
      exact ⟨p, rfl, ‹_›, rfl⟩
    · obtain ⟨i, hi, rfl⟩ : ∃ i, System.route ps addr = some (i, a) ∧ i + 1 = j := by simpa using h
      obtain ⟨q, hq, hc⟩ := ih hi
      exact ⟨q, by simpa using hq, hc⟩

/-- An address selects an instance exactly when some window holds it. -/
theorem System.route_isSome (sys : System) (addr : Nat) :
    (sys.route addr).isSome = true ↔ ∃ p ∈ sys, p.covers addr = true := by
  induction sys with
  | nil => simp [System.route]
  | cons p ps ih =>
    unfold System.route
    split <;> simp_all

end Sys2Proof.Machine
end

