-- ==== Sys2Proof/Tests/Slice0.lean ====
section
/-! SUPPORT. Small tests with expected results from the spec (the vector's id stands in each docstring), and for every
statement with hypotheses a witness that meets them. -/

open Sys2Proof Sys2Proof.Machine

namespace Sys2Proof.Tests

/-! ## Helpers -/

/-- A digest read as one number, byte 0 first. -/
def number (d : Digest) : Nat := d.toList.foldl (fun n b => n * 256 + b.toNat) 0

/-- The digest of a number. -/
def digest (n : Nat) : Digest := Vector.ofFn fun i => BitVec.ofNat 8 (n >>> (8 * (31 - i.val)))

/-- `n` bytes counting up from `b`: the spec's PAT from 0x00, SHF from 0x80 (95_test_vectors.md section 3). -/
def counting (b n : Nat) : Memory := Memory.writeBytes [] 0 ((List.range n).map fun i => BitVec.ofNat 8 (b + i))

/-- The next state of an outcome. -/
def next? : Host.Outcome State Fault Refusal → Option State
  | .next t => some t
  | .fault _ => none
  | .refused _ => none

/-- The fault of an outcome. -/
def fault? : Host.Outcome State Fault Refusal → Option Fault
  | .next _ => none
  | .fault f => some f
  | .refused _ => none

/-- The state the word `w` is the pending command of, with the engine next. -/
def pending (w : Word) (s : State) : State := s.withFetchWord 32 w.toNat

/-- The block after V-I1, but for the buffers and the host's side. -/
def ready : State :=
  { State.reset with
    K := digest 0x345c7f099d0c4adce91379b6e2e03edfd4c2fa0b874e7a5b3cf24fb11f6ed4f1
    V := digest 0x976b4836a5b3d828293e26900371f2d49e5a11754c0a45c9cc4c8fe921014a03
    strength := 256
    inst := true }

/-- The same at another strength and counter. -/
def readyAt (strength ctr : Nat) : State := { ready with strength := BitVec.ofNat 9 strength, ctr := BitVec.ofNat 16 ctr }

/-- The reset state while a command is pending. -/
def waiting : State := State.reset.accept 0x00001003

/-- The reset state with one host access to come. -/
def accessing (acc : Access) : State := State.reset.withEvents [.access acc]

/-! ## Well-formedness: each check refuses an ill-formed command -/

theorem test_wellFormed_strength :
    (Instr.instantiate 511 0 0).wellFormed = true ∧ (Instr.instantiate 512 0 0).wellFormed = false ∧
    (Instr.generate 511 0).wellFormed = true ∧ (Instr.generate 512 0).wellFormed = false := by decide

theorem test_wellFormed_entropy :
    (Instr.instantiate 0 255 0).wellFormed = true ∧ (Instr.instantiate 0 256 0).wellFormed = false ∧
    (Instr.reseed 255).wellFormed = true ∧ (Instr.reseed 256).wellFormed = false := by decide

theorem test_wellFormed_personalization :
    (Instr.instantiate 0 0 255).wellFormed = true ∧ (Instr.instantiate 0 0 256).wellFormed = false := by decide

theorem test_wellFormed_output :
    (Instr.generate 0 65535).wellFormed = true ∧ (Instr.generate 0 65536).wellFormed = false := by decide

/-! ## Decoding: words written out bit by bit from 30_encoding.md R81 to R83 -/

/-- RSV 000, PLEN 00100000, ELEN 01111101, S 100000000, OP 0001: V-I21. -/
theorem test_decode_instantiate :
    decode 0b000_00100000_01111101_100000000_0001 = .command (.instantiate 256 125 32) := by decide

/-- RSV 000, PLEN 0, ELEN 01111101, S 0, OP 0010: V-R3. -/
theorem test_decode_reseed : decode 0b000_00000000_01111101_000000000_0010 = .command (.reseed 125) := by decide

/-- RSV 000, OLEN 0000001110101001, S 100000000, OP 0011: V-G6. -/
theorem test_decode_generate : decode 0b000_0000001110101001_100000000_0011 = .command (.generate 256 937) := by decide

/-- V-X1 to V-X7. -/
theorem test_decode_illegal :
    decode 0x00000000 = .illegal .reservedOp ∧ decode 0x00000004 = .illegal .reservedOp ∧
    decode 0x0000000F = .illegal .reservedOp ∧ decode 0x20061001 = .illegal .reservedBits ∧
    decode 0x80101003 = .illegal .reservedBits ∧ decode 0x00040012 = .illegal .reseedOperands ∧
    decode 0x00240002 = .illegal .reseedOperands := by decide

/-- The host's two entry points agree with the decoder and the step on V-R1's word. -/
theorem test_decodeTableWord : decodeTableWord 32 0x00040002 = some (.reseed 32) := by decide

/-- The ends of the table and of its rows, from 40_hmac_core.md R103. -/
theorem test_roundConstants :
    roundConstants.length = 64 ∧ roundConstants[0]? = some 0x428a2f98 ∧ roundConstants[7]? = some 0xab1c5ed5 ∧
    roundConstants[8]? = some 0xd807aa98 ∧ roundConstants[63]? = some 0xc67178f2 := by decide +kernel

/-! ## One step of each command -/

/-- V-I3: INSTANTIATE 21, 0, 112 on PAT. -/
theorem test_instantiate_success :
    (next? (step (pending 0x0002A701 { State.reset with inBuf := counting 0x00 21 }))).map
        (fun t => (number t.K, number t.V, t.strength.toNat, t.inst, t.err)) =
      some (0x3656c8a55d79c408b812db00d29937a8d4ba3bf70e9790096dc8f906316d1bd7,
        0x97ab225c53d0ea8df27600745b15f0cf8b1c536cf57b1f9549ec2bb62ad882bc, 112, true, .ok) := by
  decide +kernel

/-- V-I20: INSTANTIATE 0, 33, 256: CONFIGURATION before ENTROPY_LENGTH. -/
theorem test_instantiate_configuration :
    (next? (step (pending 0x04201001 State.reset))).map (fun t => (t.err, t.inst, t.strength.toNat)) =
      some (.configuration, false, 0) := by decide

/-- V-R1: RESEED 32 on SHF after V-I1. -/
theorem test_reseed_success :
    (next? (step (pending 0x00040002 { ready with inBuf := counting 0x80 32 }))).map
        (fun t => (number t.K, number t.V, t.ctr.toNat, t.err)) =
      some (0xf6deea9c2a67c0dcf7e33c25c959562d1d9276a0fcd229f50f556f3463ab4d06,
        0x4a6dc267e4022e38c641ad19938be29bc14ca5a6671af92f2dd2e769ee3ca12f, 1, .ok) := by
  decide +kernel

/-- V-R12: RESEED 32 from reset. -/
theorem test_reseed_notInstantiated :
    (next? (step (pending 0x00040002 State.reset))).map (fun t => (t.err, t.outCount.toNat)) =
      some (.notInstantiated, 0) := by decide

/-- V-G4: GENERATE 33, 256 after V-I1: two blocks, the second cut after its first byte. -/
theorem test_generate_success :
    (next? (step (pending 0x00043003 ready))).map
        (fun t => (number t.K, number t.V, t.ctr.toNat, t.outCount.toNat,
          (Memory.slice t.outBuf 0 34).foldl (fun n b => n * 256 + b.toNat) 0)) =
      some (0x527f40ee68cbf9e944f27ee05f8e3a11a5559ea5bd9e70e4947d5aa142cebe6e,
        0x3ba5936fec47a9d2a42eb9e3aeae4c2a13dfaa78d08223d6529b4f70370b73bd, 2, 33,
        0x0ffb80875a3e9022a4941a3fa1b0d3611df14e1cf651a73ce9229b9f3ad568876800) := by
  decide +kernel

/-- V-C4: GENERATE 938 at the ceiling: REQUEST before RESEED_REQUIRED. -/
theorem test_generate_request :
    (next? (step (pending 0x00755003 (readyAt 256 10000)))).map (fun t => (t.err, t.ctr.toNat)) =
      some (.request, 10000) := by decide

/-! ## The window -/

/-- V-M1, V-M2: little-endian lanes. -/
theorem test_read_lanes :
    readValue { State.reset with inBuf := counting 0x00 16 } 0x104 4 = 0x07060504 ∧
    readValue { State.reset with inBuf := counting 0x00 16 } 0x106 2 = 0x0706 := by decide

/-- V-M3: a wide write's bytes. -/
theorem test_write_lanes :
    Memory.slice (memWrite 0x100 4 0xdeadbeef State.reset).inBuf 0 4 = [0xef, 0xbe, 0xad, 0xde] := by decide

/-- V-M4 to V-M7, V-M13: bus errors, by name. -/
theorem test_busErrors :
    (fault? (step (accessing (.read 0x102 4))) = some (.busError (.read 0x102 4) .misaligned)) ∧
    (fault? (step (accessing (.read 0x004 2))) = some (.busError (.read 0x004 2) .registerWidth)) ∧
    (fault? (step (accessing (.write 0x400 1 0))) = some (.busError (.write 0x400 1 0) .readOnly)) ∧
    (fault? (step (accessing (.read 0x00C 4))) = some (.busError (.read 0x00C 4) .reservedRange)) ∧
    (fault? (step (accessing (.write 0x008 4 1))) = some (.busError (.write 0x008 4 1) .readOnly)) := by decide

/-- V-M9 to V-M12: STATUS after the named cases. -/
theorem test_status :
    ready.statusValue = 0x00000002 ∧ { ready with err := .request }.statusValue = 0x00000032 ∧
    { ready with err := .reseedRequired }.statusValue = 0x00000042 ∧
    { State.reset with err := .notInstantiated }.statusValue = 0x00000060 := by decide

/-- V-M14: an IN_BUF write while busy. -/
theorem test_inBuf_write_busy :
    hostAccess (.write 0x100 1 0xaa) waiting = .fault (.busError (.write 0x100 1 0xaa) .inBufBusy) := rfl

/-- V-M15, V-M16: a dropped command, and the flag cleared. -/
theorem test_cmdLost :
    (waiting.issue 0x00000001).statusValue = 0x00000005 ∧ (waiting.issue 0x00000001).cmd = 0x00001003 ∧
    ((waiting.issue 0x00000001).writeStatus 0x00000004).cmdLost = false := by decide

/-! ## Witnesses: the hypotheses of each statement are met, at the boundaries of each clause -/

theorem ready_inv (strength ctr : Nat) (hs : strength ∈ Config.tiers) (hc : 1 ≤ ctr ∧ ctr ≤ 10000) :
    (readyAt strength ctr).Inv := by
  have hr : readyAt strength ctr = { ready with strength := BitVec.ofNat 9 strength, ctr := BitVec.ofNat 16 ctr } := rfl
  refine ⟨by simp, fun _ => ?_, fun _ => ?_, fun h => by simp [engineTurn, h], Nat.zero_le _⟩
  · have h9 : strength % 512 = strength := by
      simp only [Config.tiers, List.mem_cons, List.not_mem_nil, or_false] at hs
      omega
    simpa [hr, h9] using hs
  · have h16 : ctr % 65536 = ctr := by omega
    simpa [hr, h16] using hc

theorem witness_ResetEventSetsTheWholeRecord :
    (waiting.withEvents [.reset]).events = .reset :: [] ∧ (waiting.withEvents [.reset]).busy = true := by decide

theorem witness_DecodeOfEncodeIsTheCommand :
    (Instr.instantiate 511 255 255).wellFormed = true ∧ (Instr.instantiate 0 0 0).wellFormed = true ∧
    (Instr.reseed 255).wellFormed = true ∧ (Instr.reseed 0).wellFormed = true ∧
    (Instr.generate 511 65535).wellFormed = true ∧ (Instr.generate 0 0).wellFormed = true := by decide

theorem witness_WorkedEncodingsDecodeAndEncode : 511 < 512 ∧ 255 < 256 ∧ 65535 < 65536 := by decide

theorem witness_EncodeOfDecodeIsTheWord :
    decode 0x1FFFFFF1 = .command (.instantiate 511 255 255) ∧ decode 0x001FE002 = .command (.reseed 255) ∧
    decode 0x1FFFFFF3 = .command (.generate 511 65535) := by decide

theorem witness_AssembledLineDecodesToItsCommand :
    assemble .INSTANTIATE [48] = some 0x00061001 ∧ assemble .INSTANTIATE [125, 32, 256] = some 0x040FB001 ∧
    assemble .INSTANTIATE [255, 255, 511] = some 0x1FFFFFF1 ∧ assemble .RESEED [125] = some 0x000FA002 ∧
    assemble .GENERATE [937] = some 0x00753003 ∧ assemble .GENERATE [65535, 511] = some 0x1FFFFFF3 := by decide

theorem witness_StepRunsTheDecodedCommand :
    (waiting.busy = true ∧ waiting.events = [] ∧ decode waiting.cmd = .command (.generate 256 0) ∧
      exec (.generate 256 0) { waiting with events := waiting.events.tail } = .next (waiting.complete .notInstantiated)) ∧
    ((pending 0x00040002 State.reset).busy = true ∧ (pending 0x00040002 State.reset).events.head? = some .engine ∧
      decode (pending 0x00040002 State.reset).cmd = .command (.reseed 32)) :=
  ⟨⟨rfl, rfl, by decide, rfl⟩, rfl, rfl, by decide⟩

theorem witness_EngineStepFollowsItsCases :
    State.reset.busy = false ∧ (waiting.busy = true ∧ decode waiting.cmd = .command (.generate 256 0)) ∧
    ((pending 0x00000004 State.reset).busy = true ∧
      decode (pending 0x00000004 State.reset).cmd = .illegal .reservedOp) := by decide

theorem witness_IllegalCommandChangesOnlyErrAndCount :
    (pending 0x00000000 ready).busy = true ∧ (pending 0x00000000 ready).cmd.toNat % 16 = 0 ∧
    4 ≤ (pending 0x00000004 ready).cmd.toNat % 16 ∧ 4 ≤ (pending 0x0000000F ready).cmd.toNat % 16 ∧
    (pending 0x20061001 ready).cmd.toNat / 2 ^ 29 ≠ 0 ∧
    ((pending 0x00040012 ready).cmd.toNat % 16 = 2 ∧ (pending 0x00040012 ready).cmd.toNat / 2 ^ 4 % 2 ^ 9 ≠ 0) ∧
    ((pending 0x00240002 ready).cmd.toNat % 16 = 2 ∧ (pending 0x00240002 ready).cmd.toNat / 2 ^ 21 % 2 ^ 8 ≠ 0) := by
  decide

/-- The least and the most of each operand: strengths 0, 112, 113, 128, 129, 192, 193 and 256. -/
theorem witness_InstantiateSucceeds :
    ∀ x ∈ [(0, 21, 0), (112, 21, 32), (113, 24, 0), (128, 125, 0), (129, 36, 0), (192, 36, 32), (193, 48, 0), (256, 125, 32)],
      x.1 ≤ 256 ∧ 8 * x.2.2 ≤ 256 ∧ 3 * resolve x.1 ≤ 2 * (8 * x.2.1) ∧ 8 * x.2.1 ≤ 1000 := by decide

theorem witness_InstantiateReportsItsFirstFailingCheck :
    256 < 257 ∧ (256 ≤ 256 ∧ 256 < 8 * 33) ∧ (112 ≤ 256 ∧ 8 * 32 ≤ 256 ∧ 2 * (8 * 20) < 3 * resolve 112) ∧
    (256 ≤ 256 ∧ 8 * 32 ≤ 256 ∧ 3 * resolve 256 ≤ 2 * (8 * 126) ∧ 1000 < 8 * 126) := by decide

theorem witness_InstantiateEntropyMinimum :
    ∀ x ∈ [(112, 21), (113, 24), (192, 36), (193, 48)], x.1 ≤ 256 ∧ 32 ≤ 32 ∧ x.2 ≤ 125 ∧ x.2 - 1 < x.2 := by decide

theorem witness_InstantiateDependsOnlyOnItsSeed :
    let s₁ : State := { ready with inBuf := counting 0x00 21 }
    let s₂ : State := { State.reset with inBuf := counting 0x00 22 }
    s₁ ≠ s₂ ∧ ∀ i, i < 21 + 0 → Memory.read s₁.inBuf i = Memory.read s₂.inBuf i := by decide +kernel

theorem witness_ReseedSucceeds :
    ((readyAt 112 10000).Inv ∧ (readyAt 112 10000).inst = true ∧ (readyAt 112 10000).strength.toNat ≤ 8 * 14 ∧
      8 * 14 ≤ 1000) ∧
    ((readyAt 256 1).Inv ∧ (readyAt 256 1).strength.toNat ≤ 8 * 125 ∧ 8 * 125 ≤ 1000) :=
  ⟨⟨ready_inv _ _ (by decide) (by decide), rfl, by decide, by decide⟩, ready_inv _ _ (by decide) (by decide), by decide,
    by decide⟩

theorem witness_ReseedReportsItsFirstFailingCheck :
    State.reset.inst = false ∧ (ready.inst = true ∧ 8 * 31 < ready.strength.toNat) ∧
    (ready.inst = true ∧ ready.strength.toNat ≤ 8 * 126 ∧ 1000 < 8 * 126) := by decide

theorem witness_ReseedEntropyMinimum :
    ∀ x ∈ [(112, 14), (128, 16), (192, 24), (256, 32)],
      (readyAt x.1 1).inst = true ∧ x.2 ≤ 125 ∧ (readyAt x.1 1).strength.toNat = x.1 := by decide

theorem witness_ReseedAndGenerateReadOnlyTheirSlice :
    counting 0x00 33 ≠ counting 0x00 32 ∧
    ∀ i, i < 32 → Memory.read (counting 0x00 33) i = Memory.read { ready with inBuf := counting 0x00 32 }.inBuf i := by
  decide +kernel

/-- L at 0 and at 937, the requested strength at 0 and at the state's own, and the counter at 1 and at 9999. -/
theorem witness_GenerateSucceeds :
    ((readyAt 112 1).inst = true ∧ 8 * 0 ≤ 7500 ∧ 0 ≤ (readyAt 112 1).strength.toNat ∧ (readyAt 112 1).ctr.toNat < 10000) ∧
    ((readyAt 256 9999).inst = true ∧ 8 * 937 ≤ 7500 ∧ 256 ≤ (readyAt 256 9999).strength.toNat ∧
      (readyAt 256 9999).ctr.toNat < 10000) := by decide

theorem witness_GenerateReportsItsFirstFailingCheck :
    State.reset.inst = false ∧ (ready.inst = true ∧ 7500 < 8 * 938) ∧
    (ready.inst = true ∧ 8 * 937 ≤ 7500 ∧ ready.strength.toNat < 257) ∧
    ((readyAt 256 10000).inst = true ∧ 8 * 937 ≤ 7500 ∧ 256 ≤ (readyAt 256 10000).strength.toNat ∧
      10000 ≤ (readyAt 256 10000).ctr.toNat) := by decide

/-- One byte and 32 bytes: the same number of blocks. -/
theorem witness_GeneratesFromOneStateAgree :
    ready.inst = true ∧ ready.ctr.toNat < 10000 ∧ 8 * 1 ≤ 7500 ∧ 8 * 32 ≤ 7500 ∧ 0 ≤ ready.strength.toNat ∧
    256 ≤ ready.strength.toNat ∧ 0 < 1 ∧ 0 < 32 ∧ (1 + 31) / 32 = (32 + 31) / 32 := by decide

theorem witness_CounterIsOnePlusSuccessfulGenerates :
    (ready.ctr.toNat = 1 + 0 ∧ 0 ≤ 9999) ∧ ((readyAt 256 10000).ctr.toNat = 1 + 9999 ∧ 9999 ≤ 9999) ∧
    (ready.inst = true ∧ ready.ctr.toNat = 1) ∧ 10000 ≤ (readyAt 256 10000).ctr.toNat := by decide

theorem witness_SeedingCommandsFrame :
    (∃ sReq e p, Instr.instantiate 256 48 0 = .instantiate sReq e p) ∧ ∃ e, Instr.reseed 32 = .reseed e :=
  ⟨⟨256, 48, 0, rfl⟩, 32, rfl⟩

/-- A failure, whose `outCount` is 0, and the two cases of a GENERATE. -/
theorem witness_FailedCommandIsAtomic :
    (∃ t, exec (.reseed 32) State.reset = .next t ∧ t.err ≠ .ok) ∧
    (∃ t, exec (.generate 256 938) ready = .next t ∧ ¬ (t.err = .ok ∧ ∃ sReq l, Instr.generate 256 938 = .generate sReq l)) ∧
    (∃ t, exec (.generate 256 0) ready = .next t ∧ t.err = .ok) :=
  ⟨⟨_, rfl, by decide⟩, ⟨_, rfl, by rintro ⟨h, -⟩; exact absurd h (by decide)⟩, ⟨_, rfl, rfl⟩⟩

/-- One command of each kind that ends with OK, a failure, the ceiling, and a step from READY that is no reset. -/
theorem witness_LifecycleFollowsItsTransitions :
    (∃ t, exec (.reseed 0) ready = .next t ∧ t.err ≠ .ok) ∧
    (∃ t, exec (.instantiate 256 48 0) State.reset = .next t ∧ t.err = .ok) ∧
    (∃ t, exec (.reseed 32) ready = .next t ∧ t.err = .ok) ∧
    (∃ t, exec (.generate 256 0) (readyAt 256 9999) = .next t ∧ t.err = .ok) ∧
    ((readyAt 256 10000).lifecycle = .exhausted ∧ 8 * 937 ≤ 7500 ∧ 256 ≤ (readyAt 256 10000).strength.toNat) ∧
    (step ready = .next ready ∧ ready.lifecycle ≠ .uninst ∧ ¬ ready.resetIsNext) :=
  ⟨⟨_, rfl, by decide⟩, ⟨_, rfl, rfl⟩, ⟨_, rfl, rfl⟩, ⟨_, rfl, rfl⟩, by decide,
    rfl, by decide, by simp [State.resetIsNext, ready, State.reset]⟩

theorem witness_UpdateRunsItsPasses : ([] : Bytes).length = 0 ∧ 0 < ([0x00] : Bytes).length := by decide

theorem witness_ResolveRoundsUpToATier :
    112 ≤ 112 ∧ (112 < 113 ∧ 128 ≤ 128) ∧ (128 < 129 ∧ 192 ≤ 192) ∧ 192 < 193 ∧ (256 : Nat) ≤ 256 := by decide

theorem witness_PadFillsToABlock : 8 * ([] : Bytes).length < 2 ^ 64 ∧ 0 < 1 := by decide

theorem witness_ScheduleFollowsItsRecurrence :
    (List.replicate 64 (0x61 : Byte)).length = 64 ∧ 15 < 16 ∧ 16 ≤ 16 ∧ 63 < 64 := by decide

/-- Each of the seven conditions of R55, met by an access next to one that meets none, and an access that meets none. -/
theorem witness_BusErrorsAreExactlyTheListedConditions :
    (3 ≠ 1 ∧ 3 ≠ 2 ∧ 3 ≠ 4) ∧ (0x102 : Offset).toNat % 4 ≠ 0 ∧
    (∃ k, k < 4 ∧ 0x00C ≤ (0x00C : Offset).toNat + k ∧ (0x00C : Offset).toNat + k < 0x100) ∧
    ((0x008 : Offset).toNat < 0x00C ∧ 2 ≠ 4) ∧
    (Access.write 0x7FC 4 0 = .write 0x7FC 4 0 ∧ 0x400 ≤ (0x7FC : Offset).toNat ∧ (0x7FC : Offset).toNat < 0x800) ∧
    (0x100 ≤ (0x1FF : Offset).toNat ∧ (0x1FF : Offset).toNat < 0x200 ∧ waiting.busy = true) ∧
    (∃ k, k < 4 ∧ regionOf ((0x1FE : Offset).toNat + k) ≠ regionOf (0x1FE : Offset).toNat) ∧
    refused State.reset (.write 0x1FC 4 0) = none ∧ refused waiting (.read 0x7FF 1) = none :=
  ⟨by decide, by decide, ⟨0, by decide⟩, by decide, by decide, by decide, ⟨2, by decide⟩, by decide, by decide⟩

theorem witness_ReadsReturnTheStatedValues :
    refused State.reset (.read 0x000 4) = none ∧ refused State.reset (.read 0x004 4) = none ∧
    refused State.reset (.read 0x008 4) = none ∧
    (refused waiting (.read 0x100 1) = none ∧ refused waiting (.read 0x1FE 2) = none) ∧
    (refused State.reset (.read 0x400 4) = none ∧ refused State.reset (.read 0x7FF 1) = none ∧ State.reset.busy = false) ∧
    (refused waiting (.read 0x400 1) = none ∧ refused waiting (.read 0x7FC 4) = none ∧ waiting.busy = true) := by decide

theorem witness_WideAccessesAreLittleEndian :
    (refused waiting (.read 0x1FC 4) = none ∧ regionOf (0x1FC : Offset).toNat = .inBuf) ∧
    (refused State.reset (.read 0x7FE 2) = none ∧ regionOf (0x7FE : Offset).toNat = .outBuf ∧ State.reset.busy = false) ∧
    (refused State.reset (.write 0x100 4 0xdeadbeef) = none ∧ regionOf (0x100 : Offset).toNat = .inBuf) := by decide

theorem witness_WritesHaveTheStatedEffect :
    (refused State.reset (.write 0x000 4 0) = none ∧ State.reset.busy = false) ∧
    (refused waiting (.write 0x000 4 0) = none ∧ waiting.busy = true) ∧
    (refused waiting (.write 0x004 4 4) = none ∧ (4 : Word).getLsbD 2 = true) ∧
    (refused waiting (.write 0x004 4 0xFFFFFFFB) = none ∧ (0xFFFFFFFB : Word).getLsbD 2 = false) ∧
    refused State.reset (.write 0x100 1 0) = none ∧ refused State.reset (.write 0x1FC 4 0) = none := by decide

theorem witness_WriteThenReadReturnsTheValue :
    refused State.reset (.write 0x1FE 2 0xbeef) = none ∧ regionOf (0x1FE : Offset).toNat = .inBuf := by decide

theorem witness_StatusBitsAreTheFlags : 8 ≤ 31 := by decide

theorem witness_HostAccessNeverReachesTheEngineRegisters :
    hostAccess (.write 0x000 4 0x00001003) State.reset = .next waiting := rfl

theorem witness_PendingCommandAndInputAreFixed :
    waiting.busy = true ∧ hostAccess (.write 0x000 4 0x00000001) waiting = .next waiting.drop := ⟨rfl, rfl⟩

/-- A step of the engine from a state with the invariants and canonical buffers. -/
theorem witness_StepKeepsTheInvariants :
    (State.reset.accept 0x00001003).Inv ∧
    step waiting = .next (waiting.complete .notInstantiated).clearBusy :=
  ⟨⟨by simp, by decide, by decide, fun h => absurd h (by decide), by decide⟩, rfl⟩

theorem witness_StepKeepsTheBuffersCanonical :
    waiting.buffersCanonical ∧ step waiting = .next (waiting.complete .notInstantiated).clearBusy :=
  ⟨⟨rfl, rfl⟩, rfl⟩

theorem witness_CanonicalBuffersThatReadAlikeAreEqual :
    Memory.wf 256 (counting 0x00 21) = true ∧
    ∀ i, i < 256 → Memory.read (counting 0x00 21) i = Memory.read (counting 0x00 21) i :=
  ⟨by decide, fun _ _ => rfl⟩

theorem witness_OnlyTheEngineOrResetWritesTheEngine :
    let s : State := accessing (.write 0x000 4 0x00001003)
    step s = .next waiting ∧ ¬ (s.busy = true ∧ s.engineIsNext) ∧ ¬ s.resetIsNext :=
  ⟨rfl, fun h => absurd h.1 (by decide), by simp [State.resetIsNext, accessing]⟩

/-- A successful INSTANTIATE at reset, of any contents of IN_BUF. -/
theorem witness_StrengthIsWrittenOnlyByInstantiate :
    ∃ t, step (pending 0x0002A701 State.reset) = .next t ∧ t.strength ≠ (pending 0x0002A701 State.reset).strength ∧
      ¬ (pending 0x0002A701 State.reset).resetIsNext := by
  refine ⟨_, rfl, ?_, ?_⟩
  · show BitVec.ofNat 9 (resolve 112) ≠ 0
    decide
  · simp [State.resetIsNext, pending, State.withFetchWord, placeCommand]

theorem witness_BusyFollowsIssueAndCompletion :
    (step (accessing (.write 0x000 4 0x00001003)) = .next waiting ∧
      (accessing (.write 0x000 4 0x00001003)).events = .access (.write 0x000 4 0x00001003) :: [] ∧
      (accessing (.write 0x000 4 0x00001003)).busy = false) ∧
    (step waiting = .next (waiting.complete .notInstantiated).clearBusy ∧ waiting.busy = true ∧ waiting.engineIsNext) :=
  ⟨⟨rfl, rfl, rfl⟩, rfl, rfl, .inl rfl⟩

/-- A dropped write, and the write that clears the flag. -/
theorem witness_CmdLostIsSticky :
    (step (waiting.withEvents [.access (.write 0x000 4 1)]) = .next waiting.drop ∧
      (waiting.withEvents [.access (.write 0x000 4 1)]).busy = true ∧
      ¬ (waiting.withEvents [.access (.write 0x000 4 1)]).resetIsNext) ∧
    (step (waiting.drop.withEvents [.access (.write 0x004 4 4)]) = .next waiting ∧
      (waiting.drop.withEvents [.access (.write 0x004 4 4)]).cmdLost = true) :=
  ⟨⟨rfl, rfl, by simp [State.resetIsNext]⟩, rfl, rfl⟩

/-- No event left, a refused access to come, and a read, a dropped command and the engine's turn to come. -/
theorem witness_PendingCommandCompletes :
    waiting.busy = true ∧ (waiting.withEvents [.access (.read 0x004 4), .access (.read 0x102 4)]).busy = true ∧
    (let s := waiting.withEvents [.access (.read 0x7FF 1), .access (.write 0x000 4 1), .engine]
     s.busy = true ∧ .reset ∉ s.events ∧ ∀ acc, .access acc ∈ s.events → refused s acc = none) := by
  refine ⟨rfl, rfl, rfl, by simp, fun acc h => ?_⟩
  simp only [State.withEvents_events, List.mem_cons, Event.access.injEq, reduceCtorEq, List.not_mem_nil, or_false] at h
  rcases h with rfl | rfl <;> rfl

theorem witness_CommandLineRunsOneCommand :
    let s := State.reset.withEvents (commandLine 0x00001003 2 ++ rstat)
    s.busy = false ∧ s.events = commandLine 0x00001003 2 ++ rstat := ⟨rfl, rfl⟩

/-- Two instances: a step of the first, and a read and a write at the two ends of the second's window. -/
theorem witness_InstancesAreIndependent :
    let sys : System := [⟨0x10000, waiting⟩, ⟨0x11000, State.reset⟩]
    (∃ sys', sys.stepAt 0 = .next sys') ∧ (sys[0]? = some ⟨0x10000, waiting⟩ ∧ 1 ≠ 0) ∧
    ((∃ p ∈ sys, p.base ≤ 0x11000 ∧ 0x11000 < p.base + 4096) ∧
      ∃ sys', sys.post 0x11000 (.write 0x000 4 0x00001003) = some sys') ∧
    (∃ sys', sys.post 0x11FFF (.read 0x000 1) = some sys') :=
  ⟨⟨_, rfl⟩, by simp, ⟨⟨⟨0x11000, State.reset⟩, by simp, by decide, by decide⟩, ⟨_, rfl⟩⟩, ⟨_, rfl⟩⟩

/-- An access posted at a host address is the second instance's next event, at its window's offset. -/
theorem test_post :
    (System.post [⟨0x10000, waiting⟩, ⟨0x11000, State.reset⟩] 0x11104 (.write 0x000 1 0xaa)).map
        (fun sys => sys.map fun p => p.block.events) =
      some [[], [.access (.write 0x104 1 0xaa)]] := by decide

end Sys2Proof.Tests
end

section
/-! PROOFS. Strength resolution (00_scope.md R15): its four cases, and the least tier that suffices. -/

namespace Sys2Proof.Machine

/-! ## The cases of `resolve` -/

theorem resolve_of_le_112 {s : Nat} (h : s ≤ 112) : resolve s = 112 := if_pos h

theorem resolve_of_le_128 {s : Nat} (hlo : 112 < s) (hhi : s ≤ 128) : resolve s = 128 := by
  rw [resolve, if_neg (by omega), if_pos hhi]

theorem resolve_of_le_192 {s : Nat} (hlo : 128 < s) (hhi : s ≤ 192) : resolve s = 192 := by
  rw [resolve, if_neg (by omega), if_neg (by omega), if_pos hhi]

theorem resolve_of_gt_192 {s : Nat} (h : 192 < s) : resolve s = 256 := by
  rw [resolve, if_neg (by omega), if_neg (by omega), if_neg (by omega)]

/-! ## Rounding up -/

/-- Resolution never lowers a request that some tier can serve: it is a round-up, not a cap. -/
theorem le_resolve {s : Nat} (h : s ≤ 256) : s ≤ resolve s := by
  unfold resolve
  split_ifs <;> omega

theorem resolve_mono : Monotone resolve := by
  intro s t h
  unfold resolve
  split_ifs <;> omega

/-- A tier resolves to itself. -/
theorem resolve_eq_self_of_mem_tiers : ∀ t ∈ Config.tiers, resolve t = t := by decide

/-- No tier that suffices is below the resolved one, as `resolve` is monotone and fixes the tiers. -/
theorem resolve_le_of_mem_tiers {s t : Nat} (ht : t ∈ Config.tiers) (h : s ≤ t) : resolve s ≤ t :=
  calc resolve s ≤ resolve t := resolve_mono h
    _ = t := resolve_eq_self_of_mem_tiers t ht

/-- Settles O31: the four cases of `resolve`, and the least tier from its monotonicity and its fixed points. -/
theorem resolveRoundsUpToATier : Obligations.ResolveRoundsUpToATier := fun s =>
  ⟨resolve_of_le_112, fun ⟨hlo, hhi⟩ => resolve_of_le_128 hlo hhi, fun ⟨hlo, hhi⟩ => resolve_of_le_192 hlo hhi,
    resolve_of_gt_192, fun h => ⟨resolve_mem_tiers s, le_resolve h, fun _ ht hst => resolve_le_of_mem_tiers ht hst⟩⟩

end Sys2Proof.Machine
end

section
/-! PROOFS. The counter `ctr` (10_state.md R23): one more than the number of successful GENERATEs since the last seeding. -/

namespace Sys2Proof.Machine

/-! ## The success of GENERATE -/

@[simp] theorem generateBytes_err (l : Nat) (s : State) : (generateBytes l s).err = .ok := by rw [generateBytes_eq]

@[simp] theorem generateBytes_inst (l : Nat) (s : State) : (generateBytes l s).inst = s.inst := by rw [generateBytes_eq]

@[simp] theorem generateBytes_ctr (l : Nat) (s : State) : (generateBytes l s).ctr = s.ctr + 1 := by rw [generateBytes_eq]

/-- Below the ceiling the 16-bit counter does not wrap. -/
theorem toNat_generateBytes_ctr {s : State} (l : Nat) (h : s.ctr.toNat < 10000) :
    (generateBytes l s).ctr.toNat = s.ctr.toNat + 1 := by
  have hone : (1 : BitVec 16).toNat = 1 := rfl
  rw [generateBytes_ctr, BitVec.toNat_add_of_lt (by omega), hone]

/-- GENERATE succeeds once it passes its checks (60_exceptions.md R182, 41_drbg_commands.md R161 to R163). -/
theorem exec_generate_of_checks {r l : Nat} {s : State} (hinst : s.inst = true) (hl : 8 * l ≤ 7500)
    (hr : r ≤ s.strength.toNat) (hctr : s.ctr.toNat < 10000) :
    exec (.generate r l) s = .next (generateBytes l s) := by
  simp [exec, execGenerate, hinst, Nat.not_lt.2 hl, Nat.not_lt.2 hr, Nat.not_le.2 hctr]

/-- At the ceiling every GENERATE fails (10_state.md R23): of the cases of `exec`, its success needs `ctr < 10000`. -/
theorem exec_generate_fails_of_ceiling {s : State} (r l : Nat) (h : 10000 ≤ s.ctr.toNat) :
    ∃ t, exec (.generate r l) s = .next t ∧ t.err ≠ .ok := by
  obtain ⟨t, hexec, ⟨code, hcode, rfl⟩ | ⟨_, _, _, hi, _⟩ | ⟨_, hi, _⟩ | ⟨_, _, _, _, _, _, hctr, _⟩⟩ :=
    exec_cases (.generate r l) s
  · exact ⟨_, hexec, hcode⟩
  · cases hi
  · cases hi
  · omega

/-! ## The success of the seeding commands -/

@[simp] theorem seededState_err (r e p : Nat) (s : State) : (seededState r e p s).err = .ok := rfl

@[simp] theorem seededState_ctr (r e p : Nat) (s : State) : (seededState r e p s).ctr = 1 := by rw [seededState_eq]

@[simp] theorem reseededState_err (e : Nat) (s : State) : (reseededState e s).err = .ok := rfl

@[simp] theorem reseededState_ctr (e : Nat) (s : State) : (reseededState e s).ctr = 1 := rfl

/-! ## The running number of successful GENERATEs -/

theorem tallyAfter_of_ne_ok {err : ResultCode} (n : Nat) (i : Instr) (h : err ≠ .ok) : tallyAfter n i err = n := if_pos h

@[simp] theorem tallyAfter_instantiate_ok (n r e p : Nat) : tallyAfter n (.instantiate r e p) .ok = 0 := rfl

@[simp] theorem tallyAfter_reseed_ok (n e : Nat) : tallyAfter n (.reseed e) .ok = 0 := rfl

@[simp] theorem tallyAfter_generate_ok (n r l : Nat) : tallyAfter n (.generate r l) .ok = n + 1 := rfl

theorem tallyCommands_cons {i : Instr} {s t : State} (n : Nat) (rest : List Instr) (h : exec i s = .next t) :
    tallyCommands n (i :: rest) s = tallyCommands (tallyAfter n i t.err) rest t := by
  rw [tallyCommands, h]

/-- The invariant of 10_state.md R23: `ctr = 1 + n`, and the ceiling has let at most 9999 GENERATEs succeed. -/
def State.Counts (n : Nat) (s : State) : Prop := s.ctr.toNat = 1 + n ∧ n ≤ 9999

/-- Every command keeps the count: a failure writes neither side, a seeding restarts both, and a GENERATE, which succeeds
below the ceiling only, raises both by one. -/
theorem exec_keeps_counts {n : Nat} {s : State} (i : Instr) (h : s.Counts n) :
    ∃ t, exec i s = .next t ∧ t.Counts (tallyAfter n i t.err) := by
  obtain ⟨hcount, hmax⟩ := h
  obtain ⟨t, hexec, hcases⟩ := exec_cases i s
  refine ⟨t, hexec, ?_⟩
  obtain ⟨code, hcode, rfl⟩ | ⟨r, e, p, rfl, _, _, _, _, rfl⟩ | ⟨e, rfl, _, _, _, rfl⟩ |
    ⟨r, l, rfl, _, _, _, hctr, rfl⟩ := hcases
  · rw [State.complete_err, tallyAfter_of_ne_ok n i hcode]
    exact ⟨hcount, hmax⟩
  · simp [State.Counts]
  · simp [State.Counts]
  · rw [generateBytes_err, tallyAfter_generate_ok, State.Counts, toNat_generateBytes_ctr l hctr]
    omega

/-- The count holds along every sequence of commands. -/
theorem tallyCommands_keeps_counts (cs : List Instr) {n : Nat} {s : State} (h : s.Counts n) :
    (tallyCommands n cs s).2.Counts (tallyCommands n cs s).1 := by
  induction cs generalizing n s with
  | nil => exact h
  | cons i rest ih =>
    obtain ⟨t, hexec, ht⟩ := exec_keeps_counts i h
    rw [tallyCommands_cons n rest hexec]
    exact ih ht

/-- Up to the ceiling every empty GENERATE of an instantiated block succeeds, so each adds one to the number. -/
theorem tallyCommands_replicate_generate (m : Nat) {n : Nat} {s : State} (hinst : s.inst = true)
    (hcount : s.ctr.toNat = 1 + n) (hmax : n + m ≤ 9999) :
    (tallyCommands n (List.replicate m (.generate 0 0)) s).1 = n + m := by
  induction m generalizing n s with
  | zero => rfl
  | succ m ih =>
    have hctr : s.ctr.toNat < 10000 := by omega
    have hexec : exec (.generate 0 0) s = .next (generateBytes 0 s) :=
      exec_generate_of_checks hinst (by omega) (Nat.zero_le _) hctr
    have hnext : (generateBytes 0 s).ctr.toNat = 1 + (n + 1) := by
      rw [toNat_generateBytes_ctr 0 hctr]
      omega
    rw [List.replicate_succ, tallyCommands_cons n _ hexec, generateBytes_err, tallyAfter_generate_ok,
      ih (by simpa using hinst) hnext (by omega)]
    omega

/-- Settles O24: the invariant along every sequence of commands, the runs that reach each number, and the ceiling. -/
theorem counterIsOnePlusSuccessfulGenerates : Obligations.CounterIsOnePlusSuccessfulGenerates := by
  refine ⟨fun cs _ _ hcount hmax => tallyCommands_keeps_counts cs ⟨hcount, hmax⟩, fun m s hm hinst hctr => ?_,
    fun r l _ h => exec_generate_fails_of_ceiling r l h⟩
  simpa using tallyCommands_replicate_generate (n := 0) m hinst hctr (by omega)

end Sys2Proof.Machine
end

section
/-! PROOFS. STATUS (10_state.md R34): the bits of its read value, and its write. -/

namespace Sys2Proof.Machine

/-! ## The read value -/

/-- A flag as a word has its truth value in bit 0 and no other bit. -/
@[simp] theorem getLsbD_flag (b : Bool) (i : Nat) : (flag b).getLsbD i = (decide (i = 0) && b) := by
  cases b <;> simp [flag, BitVec.getLsbD_one]

/-- The low four bits are the flags and a 0. -/
theorem statusValue_flags (s : State) :
    s.statusValue.getLsbD 0 = s.busy ∧ s.statusValue.getLsbD 1 = s.inst ∧ s.statusValue.getLsbD 2 = s.cmdLost ∧
      s.statusValue.getLsbD 3 = false := by
  simp only [State.statusValue, BitVec.getLsbD_or, BitVec.getLsbD_shiftLeft, BitVec.getLsbD_setWidth, getLsbD_flag]
  simp

/-- From bit 4 up the value is the result code: no flag reaches there. -/
theorem getLsbD_statusValue_add_four (s : State) (i : Nat) : s.statusValue.getLsbD (i + 4) = s.err.code.getLsbD i := by
  simp only [State.statusValue, BitVec.getLsbD_or, BitVec.getLsbD_shiftLeft, BitVec.getLsbD_setWidth, getLsbD_flag]
  by_cases hi : i < 4
  · simp [show i + 4 < 32 by omega, show i < 32 by omega]
  · simp [BitVec.getLsbD_of_ge _ _ (Nat.le_of_not_lt hi)]

theorem extractLsb'_statusValue (s : State) : s.statusValue.extractLsb' 4 4 = s.err.code := by
  ext i hi
  rw [BitVec.getElem_extractLsb', Nat.add_comm, getLsbD_statusValue_add_four, BitVec.getLsbD_eq_getElem hi]

/-- The result code has 4 bits, so bit 8 and the bits above it are 0. -/
theorem getLsbD_statusValue_of_ge_8 (s : State) {i : Nat} (h : 8 ≤ i) : s.statusValue.getLsbD i = false := by
  obtain ⟨j, rfl⟩ := Nat.exists_eq_add_of_le' h
  exact (getLsbD_statusValue_add_four s (j + 4)).trans (BitVec.getLsbD_of_ge _ _ (Nat.le_add_left 4 j))

/-! ## The write -/

/-- STATUS takes every 4-byte write, busy or not (20_memory.md R55). -/
theorem refused_status_write (s : State) (w : Word) : refused s (.write 0x004 4 w) = none := rfl

theorem hostAccess_status_write (s : State) (w : Word) : hostAccess (.write 0x004 4 w) s = .next (s.writeStatus w) := by
  rw [hostAccess, refused_status_write]
  rfl

/-- Settles O41: the read value bit by bit, the code numbers of 60_exceptions.md R180 by evaluation, and the STATUS write. -/
theorem statusBitsAreTheFlags : Obligations.StatusBitsAreTheFlags := by
  refine ⟨fun s => ?_, by decide, hostAccess_status_write⟩
  obtain ⟨hbusy, hinst, hlost, hzero⟩ := statusValue_flags s
  exact ⟨hbusy, hinst, hlost, hzero, extractLsb'_statusValue s, fun _ => getLsbD_statusValue_of_ge_8 s⟩

end Sys2Proof.Machine
end

section
/-! PROOFS. Bus errors (20_memory.md R55): the listed conditions are exactly the refusals. -/

namespace Sys2Proof.Machine

/-! ## Refused or performed -/

theorem hostAccess_of_not_refused {acc : Access} {s : State} (h : refused s acc = none) :
    hostAccess acc s = .next (perform acc s) := by
  simp only [hostAccess, h]

/-- An access ends in one of two ways, so a criterion of `refused` is a criterion of both. -/
theorem hostAccess_fault_or_next {acc : Access} {s : State} {listed : Prop} (h : refused s acc = none ↔ ¬ listed) :
    (listed → ∃ why, hostAccess acc s = .fault (.busError acc why)) ∧
      (¬ listed → ∃ t, hostAccess acc s = .next t) := by
  constructor
  · intro hl
    have hne : refused s acc ≠ none := fun hnone => h.1 hnone hl
    obtain ⟨why, hwhy⟩ := Option.ne_none_iff_exists'.1 hne
    exact ⟨why, by simp only [hostAccess, hwhy]⟩
  · exact fun hl => ⟨_, hostAccess_of_not_refused (h.2 hl)⟩

/-! ## The conditions -/

/-- R55.1 to R55.4 and R55.7, with the third and the seventh said of every byte of the access, as R55 says them. -/
theorem refusedShape_eq_none_iff_forall_lanes (a : Offset) (n : Nat) :
    refusedShape a n = none ↔
      (n = 1 ∨ n = 2 ∨ n = 4) ∧ a.toNat % n = 0 ∧ (∀ k, k < n → regionOf (a.toNat + k) ≠ .reserved) ∧
        (a.toNat < 0x00C → n = 4) ∧ ∀ k, k < n → regionOf (a.toNat + k) = regionOf a.toNat := by
  rw [refusedShape_eq_none_iff]
  constructor
  · rintro ⟨hn, ha, hr, hw⟩
    have hlane : ∀ k, k < n → regionOf (a.toNat + k) = regionOf a.toNat := fun k hk => regionOf_lane hn ha hk
    exact ⟨hn, ha, fun k hk => hlane k hk ▸ hr, hw, hlane⟩
  · rintro ⟨hn, ha, hr, hw, -⟩
    exact ⟨hn, ha, hr 0 (by omega), hw⟩

/-- R55.5 and R55.6. -/
theorem refusedWrite_eq_none_iff (busy : Bool) (a : Offset) :
    refusedWrite busy a = none ↔
      regionOf a.toNat ≠ .outCount ∧ regionOf a.toNat ≠ .outBuf ∧ ¬ (regionOf a.toNat = .inBuf ∧ busy = true) := by
  unfold refusedWrite
  cases regionOf a.toNat <;> simp

theorem refused_read_eq_none_iff (s : State) (a : Offset) (n : Nat) :
    refused s (.read a n) = none ↔ refusedShape a n = none := Iff.rfl

theorem refused_write_eq_none_iff (s : State) (a : Offset) (n : Nat) (v : Word) :
    refused s (.write a n v) = none ↔ refusedShape a n = none ∧ refusedWrite s.busy a = none :=
  Option.or_eq_none_iff

/-- Settles O36: the two criteria above, with each region replaced by its range. What remains is De Morgan over the seven
conditions, of which a read meets neither of the two on writes. -/
theorem busErrorsAreExactlyTheListedConditions : Obligations.BusErrorsAreExactlyTheListedConditions := by
  rintro s a n v acc (rfl | rfl)
  · refine hostAccess_fault_or_next ?_
    rw [refused_read_eq_none_iff, refusedShape_eq_none_iff_forall_lanes]
    simp only [ne_eq, regionOf_eq_reserved]
    grind
  · refine hostAccess_fault_or_next ?_
    rw [refused_write_eq_none_iff, refusedShape_eq_none_iff_forall_lanes, refusedWrite_eq_none_iff]
    simp only [ne_eq, regionOf_eq_reserved, regionOf_eq_outCount, regionOf_eq_outBuf, regionOf_eq_inBuf]
    grind

end Sys2Proof.Machine
end

section
/-! PROOFS. Byte lanes (20_memory.md R58) and the effect of a write (R57). -/

namespace Sys2Proof.Machine

/-! ## The offsets of an access's bytes -/

/-- The byte offsets of an access that is not refused do not run past the window. -/
theorem toNat_lane {a : Offset} {n k : Nat} (h : refusedShape a n = none) (hk : k < n) :
    (a + BitVec.ofNat 12 k).toNat = a.toNat + k := by
  obtain ⟨hn, ha, -, -⟩ := refusedShape_none h
  have hlt := a.isLt
  rw [BitVec.toNat_add, BitVec.toNat_ofNat]
  rcases hn with rfl | rfl | rfl <;> omega

theorem regionOf_toNat_lane {a : Offset} {n k : Nat} (h : refusedShape a n = none) (hk : k < n) :
    regionOf (a + BitVec.ofNat 12 k).toNat = regionOf a.toNat := by
  obtain ⟨hn, ha, -, -⟩ := refusedShape_none h
  rw [toNat_lane h hk, regionOf_lane hn ha hk]

theorem inBufIndex_lane {a : Offset} {n k : Nat} (h : refusedShape a n = none) (hr : regionOf a.toNat = .inBuf)
    (hk : k < n) : inBufIndex (a + BitVec.ofNat 12 k) = inBufIndex a + k := by
  obtain ⟨hlow, -⟩ := regionOf_eq_inBuf.1 hr
  have htoNat : (a + BitVec.ofNat 12 k).toNat = a.toNat + k := toNat_lane h hk
  unfold inBufIndex
  omega

/-! ## Reads of a buffer -/

theorem readValue_inBuf {b : Offset} (hr : regionOf b.toNat = .inBuf) (n : Nat) (s : State) :
    readValue s b n = lanesValue (Memory.slice s.inBuf (inBufIndex b) n) := by
  simp [readValue, hr]

theorem readValue_outBuf_of_idle {b : Offset} (hr : regionOf b.toNat = .outBuf) (n : Nat) {s : State}
    (hidle : s.busy = false) : readValue s b n = lanesValue (Memory.slice s.outBuf (outBufIndex b) n) := by
  simp [readValue, hr, hidle]

/-- All reads in the region of IN_BUF, or of OUT_BUF while idle, take slices of one buffer from one base offset. -/
theorem exists_readValue_eq_slice {s : State} {a : Offset}
    (h : regionOf a.toNat = .inBuf ∨ (regionOf a.toNat = .outBuf ∧ s.busy = false)) :
    ∃ (m : Memory) (base : Nat), base ≤ a.toNat ∧ ∀ (b : Offset) (n : Nat), regionOf b.toNat = regionOf a.toNat →
      readValue s b n = lanesValue (Memory.slice m (b.toNat - base) n) := by
  rcases h with hr | ⟨hr, hidle⟩
  · exact ⟨s.inBuf, 0x100, (regionOf_eq_inBuf.1 hr).1, fun b n hb => readValue_inBuf (hb.trans hr) n s⟩
  · exact ⟨s.outBuf, 0x400, (regionOf_eq_outBuf.1 hr).1, fun b n hb => readValue_outBuf_of_idle (hb.trans hr) n hidle⟩

theorem toNat_lanesValue_slice_one (m : Memory) (i : Nat) :
    (lanesValue (Memory.slice m i 1)).toNat = (Memory.read m i).toNat := by
  simp [toNat_lanesValue_slice]

/-- A wide read is the sum of the byte reads at its offsets, each in its place. -/
theorem toNat_readValue_eq_sum_lanes {s : State} {a : Offset} {n : Nat} (h : refusedShape a n = none)
    (hr : regionOf a.toNat = .inBuf ∨ (regionOf a.toNat = .outBuf ∧ s.busy = false)) :
    (readValue s a n).toNat =
      ((List.range n).map fun k => (readValue s (a + BitVec.ofNat 12 k) 1).toNat * 2 ^ (8 * k)).sum := by
  obtain ⟨m, base, hbase, hread⟩ := exists_readValue_eq_slice hr
  obtain ⟨hn, -⟩ := refusedShape_none h
  rw [hread a n rfl, toNat_lanesValue_slice m _ n (by omega)]
  refine congrArg List.sum (List.map_congr_left fun k hk => ?_)
  have hkn : k < n := List.mem_range.1 hk
  rw [hread _ 1 (regionOf_toNat_lane h hkn), toNat_lanesValue_slice_one, toNat_lane h hkn, Nat.sub_add_comm hbase]

/-! ## Writes, region by region -/

theorem memWrite_cmd {a : Offset} (hr : regionOf a.toNat = .cmd) (n : Nat) (v : Word) (s : State) :
    memWrite a n v s = s.issue v := by
  simp [memWrite, hr]

theorem memWrite_status {a : Offset} (hr : regionOf a.toNat = .status) (n : Nat) (v : Word) (s : State) :
    memWrite a n v s = s.writeStatus v := by
  simp [memWrite, hr]

theorem memWrite_inBuf {a : Offset} (hr : regionOf a.toNat = .inBuf) (n : Nat) (v : Word) (s : State) :
    memWrite a n v s = { s with inBuf := Memory.writeBytes s.inBuf (inBufIndex a) (laneBytes n v) } := by
  simp [memWrite, hr]

theorem laneBytes_succ (n : Nat) (v : Word) : laneBytes (n + 1) v = laneBytes n v ++ [v.extractLsb' (8 * n) 8] := by
  simp [laneBytes, List.range_succ]

/-- The one byte of a byte write of `v >>> 8k` is byte `k` of `v`. -/
theorem laneBytes_one_ushiftRight (v : Word) (k : Nat) : laneBytes 1 (v >>> (8 * k)) = [v.extractLsb' (8 * k) 8] := by
  have hbyte : (v >>> (8 * k)).extractLsb' 0 8 = v.extractLsb' (8 * k) 8 := by
    ext i hi
    simp
  simp [laneBytes, hbyte]

/-- The first `j` byte writes of a wide write to IN_BUF store its first `j` lanes. -/
theorem foldl_byte_memWrite {a : Offset} {n : Nat} (h : refusedShape a n = none) (hr : regionOf a.toNat = .inBuf)
    (v : Word) (s : State) {j : Nat} (hj : j ≤ n) :
    (List.range j).foldl (fun t k => memWrite (a + BitVec.ofNat 12 k) 1 (v >>> (8 * k)) t) s =
      { s with inBuf := Memory.writeBytes s.inBuf (inBufIndex a) (laneBytes j v) } := by
  induction j with
  | zero => rfl
  | succ j ih =>
    have hlane : regionOf (a + BitVec.ofNat 12 j).toNat = .inBuf := (regionOf_toNat_lane h hj).trans hr
    rw [List.range_succ, List.foldl_append, ih (by omega), List.foldl_cons, List.foldl_nil, memWrite_inBuf hlane,
      inBufIndex_lane h hr hj, laneBytes_one_ushiftRight, laneBytes_succ, Memory.writeBytes_snoc, length_laneBytes]
    rfl

/-- Settles O38: a wide read is the sum of its byte reads, and the byte writes leave the same state as the wide write. -/
theorem wideAccessesAreLittleEndian : Obligations.WideAccessesAreLittleEndian := by
  refine ⟨fun s a n h hr => toNat_readValue_eq_sum_lanes h hr, fun s a n v h hr i => ?_⟩
  obtain ⟨hshape, -⟩ := (refused_write_eq_none_iff s a n v).1 h
  rw [foldl_byte_memWrite hshape hr v s le_rfl, memWrite_inBuf hr]

/-! ## The stored bytes -/

theorem toNat_extractLsb'_byte (v : Word) (k : Nat) :
    (v.extractLsb' (8 * k) 8).toNat = v.toNat / 2 ^ (8 * k) % 256 := by
  rw [BitVec.extractLsb'_toNat, Nat.shiftRight_eq_div_pow]

theorem read_writeBytes_laneBytes_add (m : Memory) (i : Nat) {n k : Nat} (v : Word) (hk : k < n) :
    (Memory.read (Memory.writeBytes m i (laneBytes n v)) (i + k)).toNat = v.toNat / 2 ^ (8 * k) % 256 := by
  rw [Memory.read_writeBytes, if_pos (by simp [hk]), Nat.add_sub_cancel_left, getD_laneBytes v hk,
    toNat_extractLsb'_byte]

theorem read_writeBytes_laneBytes_outside (m : Memory) {i j n : Nat} (v : Word) (hj : j < i ∨ i + n ≤ j) :
    Memory.read (Memory.writeBytes m i (laneBytes n v)) j = Memory.read m j := by
  rw [Memory.read_writeBytes, if_neg (by rw [length_laneBytes]; omega)]

/-- Settles O39: the write's effect in the region its offset selects; `issue` and `writeStatus` branch as R60, R61 and
10_state.md R34 say. -/
theorem writesHaveTheStatedEffect : Obligations.WritesHaveTheStatedEffect := by
  intro s a n v h x
  refine ⟨memWrite a n v s, hostAccess_of_not_refused h, fun hx hidle => ?_, fun hx hbusy => ?_, fun hx hbit => ?_,
    fun hx hbit => ?_, fun hlow hhigh => ?_⟩
  · rw [memWrite_cmd (regionOf_eq_cmd.2 (by omega)), State.issue, hidle]
    rfl
  · rw [memWrite_cmd (regionOf_eq_cmd.2 (by omega)), State.issue, if_pos hbusy, State.drop]
  · rw [memWrite_status (regionOf_eq_status.2 (by omega)), State.writeStatus, if_pos hbit]
  · rw [memWrite_status (regionOf_eq_status.2 (by omega)), State.writeStatus, hbit]
    rfl
  · rw [memWrite_inBuf (regionOf_eq_inBuf.2 ⟨hlow, hhigh⟩)]
    exact ⟨rfl, fun k hk => read_writeBytes_laneBytes_add _ _ v hk,
      fun i hi => read_writeBytes_laneBytes_outside _ v hi⟩

end Sys2Proof.Machine
end

section
/-! PROOFS. The encoding functions and worked words of 30_encoding.md R89, and the masks of its opcode map (R85). -/

namespace Sys2Proof

/-! ## What decodes to each command (R86) -/

theorem decode_eq_instantiate_iff (w : Word) (s e p : Nat) :
    decode w = .command (.instantiate s e p) ↔
      (opField w = 1 ∧ rsvField w = 0) ∧ strengthField w = s ∧ elenField w = e ∧ plenField w = p := by
  unfold decode
  split_ifs <;> simp_all

theorem decode_eq_reseed_iff (w : Word) (e : Nat) :
    decode w = .command (.reseed e) ↔
      (opField w = 2 ∧ rsvField w = 0 ∧ strengthField w = 0 ∧ plenField w = 0) ∧ elenField w = e := by
  unfold decode
  split_ifs <;> simp_all

theorem decode_eq_generate_iff (w : Word) (s l : Nat) :
    decode w = .command (.generate s l) ↔
      (opField w = 3 ∧ rsvField w = 0) ∧ strengthField w = s ∧ olenField w = l := by
  unfold decode
  split_ifs <;> simp_all

/-! ## Masks, field by field (R85) -/

/-- The fields of format E tile the word (30_encoding.md R81), so a word is the match value of an opcode exactly when OP
holds the opcode and every other field is 0. -/
theorem eq_iff_fields_of_lt {v : Word} (hv : v.toNat < 16) (w : Word) :
    w = v ↔ opField w = v.toNat ∧ rsvField w = 0 ∧ strengthField w = 0 ∧ plenField w = 0 ∧ elenField w = 0 := by
  simp only [opField_eq, strengthField_eq, elenField_eq, plenField_eq, rsvField_eq, ← BitVec.toNat_inj]
  omega

/-- A field the mask covers keeps its value. -/
theorem toNat_extractLsb'_and_of_covered {mask : Word} {start len : Nat}
    (h : mask.extractLsb' start len = BitVec.allOnes len) (w : Word) :
    ((w &&& mask).extractLsb' start len).toNat = (w.extractLsb' start len).toNat := by
  rw [BitVec.extractLsb'_and, h, BitVec.and_allOnes]

/-- A field the mask leaves out becomes 0. -/
theorem toNat_extractLsb'_and_of_uncovered {mask : Word} {start len : Nat} (h : mask.extractLsb' start len = 0#len)
    (w : Word) : ((w &&& mask).extractLsb' start len).toNat = 0 := by
  rw [BitVec.extractLsb'_and, h, BitVec.and_zero, BitVec.toNat_zero]

/-- The masks of INSTANTIATE and GENERATE cover OP and RSV only. -/
theorem and_opRsvMask_eq_iff {v : Word} (hv : v.toNat < 16) (w : Word) :
    w &&& 0xE000000F = v ↔ opField w = v.toNat ∧ rsvField w = 0 := by
  have hop : opField (w &&& 0xE000000F) = opField w := toNat_extractLsb'_and_of_covered (by decide) w
  have hs : strengthField (w &&& 0xE000000F) = 0 := toNat_extractLsb'_and_of_uncovered (by decide) w
  have he : elenField (w &&& 0xE000000F) = 0 := toNat_extractLsb'_and_of_uncovered (by decide) w
  have hp : plenField (w &&& 0xE000000F) = 0 := toNat_extractLsb'_and_of_uncovered (by decide) w
  have hrsv : rsvField (w &&& 0xE000000F) = rsvField w := toNat_extractLsb'_and_of_covered (by decide) w
  simp only [eq_iff_fields_of_lt hv, hop, hs, he, hp, hrsv, and_true]

/-- The mask of RESEED covers every field but ELEN. -/
theorem and_reseedMask_eq_iff {v : Word} (hv : v.toNat < 16) (w : Word) :
    w &&& 0xFFE01FFF = v ↔
      opField w = v.toNat ∧ rsvField w = 0 ∧ strengthField w = 0 ∧ plenField w = 0 := by
  have hop : opField (w &&& 0xFFE01FFF) = opField w := toNat_extractLsb'_and_of_covered (by decide) w
  have hs : strengthField (w &&& 0xFFE01FFF) = strengthField w := toNat_extractLsb'_and_of_covered (by decide) w
  have he : elenField (w &&& 0xFFE01FFF) = 0 := toNat_extractLsb'_and_of_uncovered (by decide) w
  have hp : plenField (w &&& 0xFFE01FFF) = plenField w := toNat_extractLsb'_and_of_covered (by decide) w
  have hrsv : rsvField (w &&& 0xFFE01FFF) = rsvField w := toNat_extractLsb'_and_of_covered (by decide) w
  simp only [eq_iff_fields_of_lt hv, hop, hs, he, hp, hrsv, and_true]

/-- Settles O8: the condition of each line of `decode` is a match under that command's mask. -/
theorem decodeFollowsTheOpcodeMap : Obligations.DecodeFollowsTheOpcodeMap := by
  intro w
  refine ⟨?_, ?_, ?_⟩
  · rw [and_opRsvMask_eq_iff (by decide)]
    simp [decode_eq_instantiate_iff]
  · rw [and_reseedMask_eq_iff (by decide)]
    simp [decode_eq_reseed_iff]
  · rw [and_opRsvMask_eq_iff (by decide)]
    simp [decode_eq_generate_iff]

/-! ## The encoding functions (R89) -/

/-- RESEED's word is a word of format E whose S and PLEN are 0 (30_encoding.md R85). -/
theorem toNat_encode_reseed {e : Nat} (he : e < 2 ^ 8) : (encode (.reseed e)).toNat = 2 ||| e <<< 13 := by
  obtain ⟨-, hor⟩ := toNat_encE (op := 2) (s := 0) (p := 0) (by decide) (by decide) he (by decide)
  simpa [encode] using hor

/-- Settles O4: the words of both formats as their encoding functions give them, and the eleven example words by
evaluation. -/
theorem workedEncodingsDecodeAndEncode : Obligations.WorkedEncodingsDecodeAndEncode :=
  ⟨fun _ _ _ hs he hp => ⟨(toNat_encE (by decide) hs he hp).2, toNat_encode_reseed he⟩,
    fun _ _ hs hl => (toNat_encG (by decide) hs hl).2, by decide⟩

end Sys2Proof
end

section
/-! PROOFS. SHA-256 and HMAC (40_hmac_core.md R104 to R114): padding, the message schedule, the nested hash and the known
values. -/

namespace Sys2Proof.Machine

/-! ## Padding (R105) -/

theorem padZeros_spec (len : Nat) : (len + 1 + padZeros len) % 64 = 56 := by
  unfold padZeros
  omega

/-- No smaller number of zero bytes will do: two solutions differ by a multiple of 64, and `padZeros` is below 64. -/
theorem padZeros_least {len y : Nat} (h : y < padZeros len) : (len + 1 + y) % 64 ≠ 56 := by
  unfold padZeros at h
  omega

@[simp] theorem length_be64 (n : Nat) : (be64 n).length = 8 := by simp [be64]

theorem length_pad (m : Bytes) : (pad m).length = m.length + 1 + padZeros m.length + 8 := by
  simp only [pad, List.length_append, List.length_singleton, List.length_replicate, length_be64]

/-- Read as a big-endian number, the first `j` bytes of `be64 n` are `n` without its low `8 - j` bytes. -/
theorem foldl_take_be64 {n j : Nat} (hn : n < 2 ^ 64) (hj : j ≤ 8) :
    ((be64 n).take j).foldl (fun a b => a * 256 + b.toNat) 0 = n >>> (8 * (8 - j)) := by
  induction j with
  | zero => exact (Nat.shiftRight_eq_zero n 64 hn).symm
  | succ j ih =>
    have hbyte : (be64 n)[j]? = some (BitVec.ofNat 8 (n >>> (8 * (7 - j)))) := by
      simp [be64, List.getElem?_range (show j < 8 by omega)]
    have hshift : n >>> (8 * (8 - j)) = n >>> (8 * (7 - j)) / 2 ^ 8 := by
      rw [show 8 * (8 - j) = 8 * (7 - j) + 8 by omega, Nat.shiftRight_add, Nat.shiftRight_eq_div_pow _ 8]
    have hindex : 8 - (j + 1) = 7 - j := by omega
    rw [List.take_add_one, hbyte, List.foldl_append, ih (by omega), hshift, hindex]
    simp only [Option.toList_some, List.foldl_cons, List.foldl_nil, BitVec.toNat_ofNat]
    omega

theorem foldl_be64 {n : Nat} (hn : n < 2 ^ 64) : (be64 n).foldl (fun a b => a * 256 + b.toNat) 0 = n := by
  simpa [List.take_of_length_le (length_be64 n).le] using foldl_take_be64 hn le_rfl

/-- Settles O32: `padZeros` is the least solution of R105's congruence, and the tail is `be64` of the bit length. -/
theorem padFillsToABlock : Obligations.PadFillsToABlock := by
  intro m
  have hzeros := padZeros_spec m.length
  refine ⟨padZeros m.length, be64 (8 * m.length), hzeros, fun _ => padZeros_least, rfl, length_be64 _, foldl_be64, ?_⟩
  rw [length_pad]
  omega

/-! ## The schedule (R106) -/

/-- A byte put below a bit vector is a digit in base 256. -/
theorem toNat_append_byte {w : Nat} (x : BitVec w) (b : Byte) : (x ++ b).toNat = x.toNat * 2 ^ 8 + b.toNat := by
  rw [BitVec.toNat_append, ← Nat.shiftLeft_add_eq_or_of_lt b.isLt, Nat.shiftLeft_eq]

/-- The four shifted bytes do not overlap, so they are the bytes in a row. -/
theorem wordOfBytes_eq_append (b0 b1 b2 b3 : Byte) :
    wordOfBytes b0 b1 b2 b3 = (b0 ++ b1 ++ b2 ++ b3).setWidth 32 := by
  rw [BitVec.setWidth_append_append_append_eq_shiftLeft_setWidth_or, wordOfBytes]

theorem toNat_wordOfBytes (b0 b1 b2 b3 : Byte) :
    (wordOfBytes b0 b1 b2 b3).toNat = b0.toNat * 2 ^ 24 + b1.toNat * 2 ^ 16 + b2.toNat * 2 ^ 8 + b3.toNat := by
  have hlt := (b0 ++ b1 ++ b2 ++ b3).isLt
  rw [wordOfBytes_eq_append, BitVec.toNat_setWidth, Nat.mod_eq_of_lt hlt, toNat_append_byte, toNat_append_byte,
    toNat_append_byte]
  omega

/-- Where `wordsOf` stops, fewer bytes than a word are left. -/
theorem length_lt_four_of_ne_cons {b : Bytes} (h : ∀ b0 b1 b2 b3 rest, b = b0 :: b1 :: b2 :: b3 :: rest → False) :
    b.length < 4 := by
  match b, h with
  | [], _ | [_], _ | [_, _], _ | [_, _, _], _ => simp
  | b0 :: b1 :: b2 :: b3 :: rest, h => exact (h b0 b1 b2 b3 rest rfl).elim

@[simp] theorem length_wordsOf (b : Bytes) : (wordsOf b).length = b.length / 4 := by
  induction b using wordsOf.induct with
  | case1 b0 b1 b2 b3 rest ih =>
    rw [wordsOf, List.length_cons, ih]
    exact (Nat.add_div_right _ (by decide)).symm
  | case2 b h => simp [wordsOf, Nat.div_eq_of_lt (length_lt_four_of_ne_cons h)]

/-- Word `t` of a byte string is made of its bytes `4t` to `4t + 3` (R104). -/
theorem getD_wordsOf {b : Bytes} {t : Nat} (ht : 4 * t + 3 < b.length) :
    (wordsOf b).getD t 0 =
      wordOfBytes (b.getD (4 * t) 0) (b.getD (4 * t + 1) 0) (b.getD (4 * t + 2) 0) (b.getD (4 * t + 3) 0) := by
  induction b using wordsOf.induct generalizing t with
  | case1 b0 b1 b2 b3 rest ih =>
    cases t with
    | zero => simp [wordsOf]
    | succ t =>
      have hrest : 4 * t + 3 < rest.length := by
        simp only [List.length_cons] at ht
        omega
      simpa [wordsOf, Nat.mul_add] using ih hrest
  | case2 b h =>
    have hshort := length_lt_four_of_ne_cons h
    omega

@[simp] theorem length_extendSchedule (n : Nat) (w : List Word) : (extendSchedule n w).length = w.length + n := by
  induction n generalizing w with
  | zero => rfl
  | succ n ih => rw [extendSchedule, ih, List.length_cons, Nat.add_right_comm, Nat.add_assoc]

/-- `extendSchedule` adds its words at the front; this is the same recursion with the last word split off. -/
theorem extendSchedule_succ (n : Nat) (w : List Word) :
    extendSchedule (n + 1) w = scheduleWord (extendSchedule n w) :: extendSchedule n w := by
  induction n generalizing w with
  | zero => rfl
  | succ n ih => exact ih (scheduleWord w :: w)

/-- Word `t` of a list kept newest first. -/
def oldestFirst (w : List Word) (t : Nat) : Word := w.reverse.getD t 0

/-- A longer run of `extendSchedule` keeps the words before its last one. -/
theorem oldestFirst_extendSchedule_succ_of_lt {n i : Nat} {w : List Word} (h : i < w.length + n) :
    oldestFirst (extendSchedule (n + 1) w) i = oldestFirst (extendSchedule n w) i := by
  rw [oldestFirst, extendSchedule_succ, List.reverse_cons, List.getD_append _ _ _ _ (by simpa using h), oldestFirst]

theorem oldestFirst_extendSchedule_succ_last (n : Nat) (w : List Word) :
    oldestFirst (extendSchedule (n + 1) w) (w.length + n) = scheduleWord (extendSchedule n w) := by
  simp [oldestFirst, extendSchedule_succ]

/-- The words of a longer schedule below the first one's length are its own. -/
theorem oldestFirst_extendSchedule_of_lt (n : Nat) {w : List Word} {t : Nat} (h : t < w.length) :
    oldestFirst (extendSchedule n w) t = oldestFirst w t := by
  induction n with
  | zero => rfl
  | succ n ih => rw [oldestFirst_extendSchedule_succ_of_lt (Nat.lt_add_right n h), ih]

theorem getD_eq_oldestFirst {w : List Word} {i : Nat} (h : i < w.length) :
    w.getD i 0 = oldestFirst w (w.length - 1 - i) := by
  rw [oldestFirst, List.getD_reverse _ (by omega)]
  congr 1
  omega

/-- The newest words of a schedule by their indexes from the start (R106). -/
theorem scheduleWord_eq {w : List Word} (h : 16 ≤ w.length) :
    scheduleWord w = smallSigma1 (oldestFirst w (w.length - 2)) + oldestFirst w (w.length - 7) +
      smallSigma0 (oldestFirst w (w.length - 15)) + oldestFirst w (w.length - 16) := by
  rw [scheduleWord, getD_eq_oldestFirst (by omega), getD_eq_oldestFirst (by omega), getD_eq_oldestFirst (by omega),
    getD_eq_oldestFirst (by omega)]
  rfl

/-- Every word that `extendSchedule` adds meets R106's recurrence, and the words it adds later leave that so. -/
theorem oldestFirst_extendSchedule {n : Nat} {w : List Word} {t : Nat} (hw : 16 ≤ w.length) (hlow : w.length ≤ t)
    (hhigh : t < w.length + n) :
    let W := oldestFirst (extendSchedule n w)
    W t = smallSigma1 (W (t - 2)) + W (t - 7) + smallSigma0 (W (t - 15)) + W (t - 16) := by
  intro W
  induction n with
  | zero => omega
  | succ n ih =>
    have hlen : (extendSchedule n w).length = w.length + n := length_extendSchedule n w
    have hold : ∀ i, i < w.length + n → W i = oldestFirst (extendSchedule n w) i := fun _ =>
      oldestFirst_extendSchedule_succ_of_lt
    rw [hold (t - 2) (by omega), hold (t - 7) (by omega), hold (t - 15) (by omega), hold (t - 16) (by omega)]
    by_cases ht : t < w.length + n
    · rw [hold t ht, ih ht]
    · obtain rfl : t = w.length + n := by omega
      have hnew : W (w.length + n) = scheduleWord (extendSchedule n w) := oldestFirst_extendSchedule_succ_last n w
      rw [hnew, scheduleWord_eq (by omega), hlen]

theorem length_schedule {block : Bytes} (h : block.length = 64) : (schedule block).length = 64 := by
  simp [schedule, h]

/-- Settles O33: the first 16 words of `extendSchedule` are the block's, and each word it adds meets the recurrence. -/
theorem scheduleFollowsItsRecurrence : Obligations.ScheduleFollowsItsRecurrence := by
  intro block hblock W byte
  have hwords : (wordsOf block).reverse.length = 16 := by simp [hblock]
  refine ⟨length_schedule hblock, fun t ht => ?_, fun t hlow hhigh => ?_⟩
  · have hfirst : W t = (wordsOf block).getD t 0 := by
      have hkept := oldestFirst_extendSchedule_of_lt 48 (hwords ▸ ht)
      rwa [oldestFirst, oldestFirst, List.reverse_reverse] at hkept
    rw [hfirst, getD_wordsOf (by omega), toNat_wordOfBytes]
  · exact oldestFirst_extendSchedule hwords.ge (hwords.trans_le hlow) (by omega)

/-! ## HMAC (R111, R113) -/

/-- Either way, the prepared key fills a block (R111). -/
theorem length_hmacKey (key : Bytes) : (hmacKey key).length = 64 := by
  unfold hmacKey hmacBlockSize
  split
  · simp
  · rw [List.length_append, List.length_replicate]
    omega

/-- The bytewise xor with a pad of the same length (R112). -/
theorem xorPad_eq_zipWith (b : Byte) (k : Bytes) :
    xorPad b k = List.zipWith (· ^^^ ·) k (List.replicate k.length b) := by
  induction k with
  | nil => rfl
  | cons x k ih => exact congrArg ((x ^^^ b) :: ·) ih

/-- Settles O34: R113's nesting is `hmac`'s own, and each pad has the length of the prepared key. -/
theorem hmacIsTheNestedHash : Obligations.HmacIsTheNestedHash := by
  intro key msg k0 opad ipad
  have hlen : k0.length = 64 := length_hmacKey key
  refine ⟨hlen, ?_⟩
  have hpad (b : Byte) : xorPad b (hmacKey key) = List.zipWith (· ^^^ ·) k0 (List.replicate 64 b) :=
    hlen ▸ xorPad_eq_zipWith b k0
  rw [hmac, hpad, hpad]

/-! ## Known values (R109, R114) -/

/-- Settles O35: the three values, each computed by the kernel. -/
theorem knownAnswersOfTheCore : Obligations.KnownAnswersOfTheCore :=
  ⟨by decide +kernel, by decide +kernel, by decide +kernel⟩

end Sys2Proof.Machine
end

section
/-! PROOFS. UPDATE (41_drbg_commands.md R140, R141): its one pass or two as HMACs. -/

namespace Sys2Proof.Machine

/-- A pass as a record update, its message grouped as R140 writes it. -/
theorem updatePass_eq_hmac (sep : Byte) (data : Bytes) (s : State) :
    updatePass sep data s =
      { s with
        K := hmac s.K.toList (s.V.toList ++ [sep] ++ data)
        V := hmac (hmac s.K.toList (s.V.toList ++ [sep] ++ data)).toList s.V.toList } := by
  simp [updatePass, State.withKV]

theorem update_nil (s : State) : update [] s = updatePass 0x00 [] s := rfl

theorem update_of_length_pos {data : Bytes} (h : 0 < data.length) (s : State) :
    update data s = updatePass 0x01 data (updatePass 0x00 data s) := by
  cases data with
  | nil => cases h
  | cons _ _ => rfl

/-- Settles O30: one pass for empty data, and two for non-empty data, the second on what the first left. -/
theorem updateRunsItsPasses : Obligations.UpdateRunsItsPasses := by
  refine fun data s => ⟨fun hempty => ?_, fun hpos => ?_⟩
  · obtain rfl := List.length_eq_zero_iff.1 hempty
    rw [update_nil, updatePass_eq_hmac]
  · simp only [update_of_length_pos hpos, updatePass_eq_hmac]

end Sys2Proof.Machine
end

section
/-! PROOFS. The seeding commands INSTANTIATE and RESEED (41_drbg_commands.md R130 to R135, R150 to R153): checks and success. -/

namespace Sys2Proof.Machine

theorem slice_zero_eq_map_range (m : Memory) (n : Nat) :
    Memory.slice m 0 n = (List.range n).map fun i => Memory.read m i := by
  rw [Memory.slice, ← List.range_eq_range']

/-! ## INSTANTIATE -/

/-- INSTANTIATE's chain of checks, R131 to R134, in front of its success. -/
theorem exec_instantiate (r e p : Nat) (s : State) :
    exec (.instantiate r e p) s =
      if 256 < r then .next (s.complete .configuration)
      else if 256 < 8 * p then .next (s.complete .configuration)
      else if 2 * (8 * e) < 3 * resolve r then .next (s.complete .entropyLength)
      else if 1000 < 8 * e then .next (s.complete .entropyLength)
      else .next (seededState r e p s) := rfl

theorem exec_instantiate_of_checks {r e p : Nat} (s : State) (hr : r ≤ 256) (hp : 8 * p ≤ 256)
    (hmin : 3 * resolve r ≤ 2 * (8 * e)) (hmax : 8 * e ≤ 1000) :
    exec (.instantiate r e p) s = .next (seededState r e p s) := by
  rw [exec_instantiate, if_neg hr.not_gt, if_neg hp.not_gt, if_neg hmin.not_gt, if_neg hmax.not_gt]

/-- The resolved strength fits its 9-bit register. -/
theorem toNat_seededState_strength (r e p : Nat) (s : State) : (seededState r e p s).strength.toNat = resolve r := by
  simp [seededState_eq]

/-- Settles O13: the checks pass, the minimum of R133 leaves a seed that is not empty, and so UPDATE runs both passes from
the constants of R135. -/
theorem instantiateSucceeds : Obligations.InstantiateSucceeds := by
  intro r e p s hr hp hmin hmax
  refine ⟨seededState r e p s, exec_instantiate_of_checks s hr hp hmin hmax, toNat_seededState_strength r e p s, by simp,
    ?_⟩
  have hpos : 0 < (seedOf e p s).length := by
    have hlow : 112 ≤ resolve r := (resolve_bounds r).1
    rw [length_seedOf]
    omega
  rw [seededState_eq, (updateRunsItsPasses _ _).2 hpos, seedOf_eq_slice, slice_zero_eq_map_range, State.construct_K,
    State.construct_V, Vector.toList_replicate, Vector.toList_replicate]

/-- Settles O14: each clause passes the checks before its own in the chain and fails there. -/
theorem instantiateReportsItsFirstFailingCheck : Obligations.InstantiateReportsItsFirstFailingCheck := by
  intro r e p s
  refine ⟨fun hr => ?_, fun hr hp => ?_, fun hr hp hmin => ?_, fun hr hp hmin hmax => ?_⟩
  · rw [exec_instantiate, if_pos hr, State.complete]
  · rw [exec_instantiate, if_neg hr.not_gt, if_pos hp, State.complete]
  · rw [exec_instantiate, if_neg hr.not_gt, if_neg hp.not_gt, if_pos hmin, State.complete]
  · rw [exec_instantiate, if_neg hr.not_gt, if_neg hp.not_gt, if_neg hmin.not_gt, if_pos hmax, State.complete]

/-! ## RESEED -/

/-- RESEED's chain of checks, 60_exceptions.md R182 and then R151 and R152, in front of its success. -/
theorem exec_reseed (e : Nat) (s : State) :
    exec (.reseed e) s =
      if s.inst = false then .next (s.complete .notInstantiated)
      else if 8 * e < s.strength.toNat then .next (s.complete .entropyLength)
      else if 1000 < 8 * e then .next (s.complete .entropyLength)
      else .next (reseededState e s) := rfl

theorem exec_reseed_of_checks {e : Nat} {s : State} (hinst : s.inst = true) (hmin : s.strength.toNat ≤ 8 * e)
    (hmax : 8 * e ≤ 1000) : exec (.reseed e) s = .next (reseededState e s) := by
  rw [exec_reseed, if_neg (ne_false_of_eq_true hinst), if_neg hmin.not_gt, if_neg hmax.not_gt]

/-- Every tier is above 0: an instantiated block asks RESEED for entropy (R141). -/
theorem strength_pos_of_inv {s : State} (hinv : s.Inv) (hinst : s.inst = true) : 0 < s.strength.toNat := by
  have htiers : ∀ t ∈ Config.tiers, 0 < t := by decide
  exact htiers _ (hinv.tier hinst)

/-- Settles O17: the checks pass, R40.2 leaves entropy that is not empty, and so UPDATE runs both passes. -/
theorem reseedSucceeds : Obligations.ReseedSucceeds := by
  intro e s hinv hinst hmin hmax
  refine ⟨reseededState e s, exec_reseed_of_checks hinst hmin hmax, by simp, ?_⟩
  have hpos : 0 < (entropyOf e s).length := by
    have hstrength := strength_pos_of_inv hinv hinst
    rw [length_entropyOf]
    omega
  rw [reseededState_eq, (updateRunsItsPasses _ _).2 hpos, entropyOf, slice_zero_eq_map_range]

/-- Settles O18: each clause passes the checks before its own in the chain and fails there. -/
theorem reseedReportsItsFirstFailingCheck : Obligations.ReseedReportsItsFirstFailingCheck := by
  intro e s
  refine ⟨fun hinst => ?_, fun hinst hmin => ?_, fun hinst hmin hmax => ?_⟩
  · rw [exec_reseed, if_pos hinst, State.complete]
  · rw [exec_reseed, if_neg (ne_false_of_eq_true hinst), if_pos hmin, State.complete]
  · rw [exec_reseed, if_neg (ne_false_of_eq_true hinst), if_neg hmin.not_gt, if_pos hmax, State.complete]

end Sys2Proof.Machine
end

section
/-! PROOFS. GENERATE (41_drbg_commands.md R160 to R166): its checks, its output and what it leaves in the engine. -/

namespace Sys2Proof.Machine

/-! ## The checks (60_exceptions.md R182, 41_drbg_commands.md R161 to R163) -/

/-- GENERATE's chain of checks in front of its success. -/
theorem exec_generate (r l : Nat) (s : State) :
    exec (.generate r l) s =
      if s.inst = false then .next (s.complete .notInstantiated)
      else if 7500 < 8 * l then .next (s.complete .request)
      else if s.strength.toNat < r then .next (s.complete .request)
      else if 10000 ≤ s.ctr.toNat then .next (s.complete .reseedRequired)
      else .next (generateBytes l s) := rfl

/-- Settles O22: each clause passes the checks before its own in the chain and fails there. -/
theorem generateReportsItsFirstFailingCheck : Obligations.GenerateReportsItsFirstFailingCheck := by
  intro r l s
  refine ⟨fun hinst => ?_, fun hinst hl => ?_, fun hinst hl hr => ?_, fun hinst hl hr hctr => ?_⟩
  · rw [exec_generate, if_pos hinst, State.complete]
  · rw [exec_generate, if_neg (ne_false_of_eq_true hinst), if_pos hl, State.complete]
  · rw [exec_generate, if_neg (ne_false_of_eq_true hinst), if_neg hl.not_gt, if_pos hr, State.complete]
  · rw [exec_generate, if_neg (ne_false_of_eq_true hinst), if_neg hl.not_gt, if_neg hr.not_gt, if_pos hctr,
      State.complete]

/-! ## The output (R164 to R166) -/

/-- The success of GENERATE with the output loop run: one pass of UPDATE on the last block, then the count and the delivery. -/
theorem generateBytes_eq_blocks (l : Nat) (s : State) :
    generateBytes l s =
      { updatePass 0x00 [] (s.withV ((nextBlock s.K)^[(l + 31) / 32] s.V)) with
        ctr := s.ctr + 1
        outBuf := Memory.writeBytes s.outBuf 0 ((blockBytes s.K ((l + 31) / 32) s.V).take l)
        outCount := BitVec.ofNat 16 l
        err := .ok } := by
  rw [generateBytes_eq, outputLoop_start, update_nil]
  rfl

/-- The blocks suffice: cut to `l` bytes they are `l` bytes. -/
theorem length_take_blockBytes (k : Digest) (l : Nat) (v : Digest) :
    ((blockBytes k ((l + 31) / 32) v).take l).length = l := by
  simpa only [outputLoop_start] using length_output k l v

theorem toNat_generateBytes_outCount {l : Nat} (s : State) (hl : 8 * l ≤ 7500) :
    (generateBytes l s).outCount.toNat = l := by
  rw [generateBytes_eq_blocks]
  exact Nat.mod_eq_of_lt (by omega)

/-- Byte `i` of OUT_BUF below `l` comes from block `i / 32`, counted from 0. -/
theorem read_generateBytes_outBuf_of_lt {l i : Nat} (s : State) (hi : i < l) :
    Memory.read (generateBytes l s).outBuf i = ((nextBlock s.K)^[i / 32 + 1] s.V).toList.getD (i % 32) 0 := by
  have hcut : ((blockBytes s.K ((l + 31) / 32) s.V).take l).getD i 0 = (blockBytes s.K ((l + 31) / 32) s.V).getD i 0 := by
    rw [List.getD, List.getD, List.getElem?_take_of_lt hi]
  rw [generateBytes_eq_blocks, Memory.read_writeBytes, length_take_blockBytes, if_pos ⟨i.zero_le, by omega⟩, Nat.sub_zero,
    hcut, getD_blockBytes _ _ _ _ (by omega)]

theorem read_generateBytes_outBuf_of_ge {l i : Nat} (s : State) (hi : l ≤ i) :
    Memory.read (generateBytes l s).outBuf i = Memory.read s.outBuf i := by
  rw [generateBytes_eq_blocks, Memory.read_writeBytes, length_take_blockBytes, if_neg (by omega)]

/-- Settles O21: the checks pass, and the fields are those of `generateBytes_eq_blocks`, the bytes of OUT_BUF read back. -/
theorem generateSucceeds : Obligations.GenerateSucceeds := by
  intro r l s hinst hl hr hctr
  refine ⟨generateBytes l s, exec_generate_of_checks hinst hl hr hctr, toNat_generateBytes_ctr l hctr,
    toNat_generateBytes_outCount s hl, fun _ => read_generateBytes_outBuf_of_lt s,
    fun _ => read_generateBytes_outBuf_of_ge s, ?_⟩
  rw [generateBytes_eq_blocks, updatePass_eq_hmac, List.append_nil]
  rfl

end Sys2Proof.Machine
end

section
/-! PROOFS. The engine step (60_exceptions.md R185): its cases, the reserved encodings (R181), and that a failed command is
atomic (R184). -/

namespace Sys2Proof.Machine

/-! ## The engine's turn (R185) -/

theorem engineTurn_of_idle {s : State} (hbusy : s.busy = false) : engineTurn s = .next s := by
  rw [engineTurn, hbusy, if_neg Bool.false_ne_true]

theorem engineTurn_of_busy {s : State} (hbusy : s.busy = true) : engineTurn s = engineStep s := by
  rw [engineTurn, if_pos hbusy]

theorem engineStep_of_illegal {s : State} {why : IllegalWord} (hdec : decode s.cmd = .illegal why) :
    engineStep s = .next (s.complete .illegalCommand).clearBusy := by
  rw [engineStep, hdec, endCommand]

theorem engineStep_of_command {s t : State} {i : Instr} (hdec : decode s.cmd = .command i) (hexec : exec i s = .next t) :
    engineStep s = .next t.clearBusy := by
  simp only [engineStep, hdec, hexec, endCommand]

/-- Settles O11: the turn is the step exactly while busy, and the step ends what its case on the decoded word does. -/
theorem engineStepFollowsItsCases : Obligations.EngineStepFollowsItsCases := by
  intro s
  refine ⟨engineTurn_of_idle, fun why hbusy hdec => ?_, fun i hbusy hdec => ?_⟩
  · rw [engineTurn_of_busy hbusy, engineStep_of_illegal hdec, State.clearBusy, State.complete]
  · obtain ⟨t, hexec, -⟩ := exec_cases i s
    exact ⟨t, hexec, by rw [engineTurn_of_busy hbusy, engineStep_of_command hdec hexec, State.clearBusy]⟩

/-! ## Reserved encodings (30_encoding.md R87, R181) -/

/-- A reserved encoding, by its number, meets the condition of no line of `decode` that gives a command. -/
theorem decode_of_reserved {w : Word}
    (h : w.toNat % 16 = 0 ∨ 4 ≤ w.toNat % 16 ∨ w.toNat / 2 ^ 29 ≠ 0 ∨
      (w.toNat % 16 = 2 ∧ (w.toNat / 2 ^ 4 % 2 ^ 9 ≠ 0 ∨ w.toNat / 2 ^ 21 % 2 ^ 8 ≠ 0))) :
    decode w = .illegal (illegalReason w) := by
  have hinstantiate : ¬ (opField w = 1 ∧ rsvField w = 0) := by
    rw [opField_eq, rsvField_eq]
    omega
  have hreseed : ¬ (opField w = 2 ∧ rsvField w = 0 ∧ strengthField w = 0 ∧ plenField w = 0) := by
    rw [opField_eq, rsvField_eq, strengthField_eq, plenField_eq]
    omega
  have hgenerate : ¬ (opField w = 3 ∧ rsvField w = 0) := by
    rw [opField_eq, rsvField_eq]
    omega
  rw [decode, if_neg hinstantiate, if_neg hreseed, if_neg hgenerate]

/-- Settles O12: the pending word decodes to ILLEGAL, and that case of the engine step completes with its code. -/
theorem illegalCommandChangesOnlyErrAndCount : Obligations.IllegalCommandChangesOnlyErrAndCount := by
  intro s hbusy hreserved
  obtain ⟨-, hillegal, -⟩ := engineStepFollowsItsCases s
  exact hillegal _ hbusy (decode_of_reserved hreserved)

/-! ## Completion (R184) -/

@[simp] theorem seededState_outCount (r e p : Nat) (s : State) : (seededState r e p s).outCount = 0 := rfl

@[simp] theorem reseededState_outCount (e : Nat) (s : State) : (reseededState e s).outCount = 0 := rfl

/-- Settles O27: of the cases of `exec`, the failing one is `complete` alone, the seeding commands succeed through
`complete`, and only GENERATE's success delivers bytes. -/
theorem failedCommandIsAtomic : Obligations.FailedCommandIsAtomic := by
  intro i s
  obtain ⟨t, hexec, hcases⟩ := exec_cases i s
  refine ⟨t, hexec, ?_⟩
  obtain ⟨code, hcode, rfl⟩ | ⟨r, e, p, rfl, _, _, _, _, rfl⟩ | ⟨e, rfl, _, _, _, rfl⟩ | ⟨r, l, rfl, _, hl, _, _, rfl⟩ :=
    hcases
  · exact ⟨fun _ => rfl, fun _ => rfl, fun _ _ _ hok => absurd hok hcode⟩
  · exact ⟨fun hfail => absurd (seededState_err r e p s) hfail, fun _ => seededState_outCount r e p s, nofun⟩
  · exact ⟨fun hfail => absurd (reseededState_err e s) hfail, fun _ => reseededState_outCount e s, nofun⟩
  · refine ⟨fun hfail => absurd (generateBytes_err l s) hfail, fun hnot => ?_, fun r' l' hi _ => ?_⟩
    · exact absurd ⟨generateBytes_err l s, r, l, rfl⟩ hnot
    · cases hi
      exact toNat_generateBytes_outCount s hl

end Sys2Proof.Machine
end

section
/-! PROOFS. The values of reset (70_reset_and_hazards.md R200). -/

namespace Sys2Proof.Machine

/-- STATUS reads 0 where its four fields hold 0: the derivation that R200's table gives for this row. -/
theorem statusValue_eq_zero {s : State} (herr : s.err = .ok) (hlost : s.cmdLost = false) (hinst : s.inst = false)
    (hbusy : s.busy = false) : s.statusValue = 0 := by
  rw [State.statusValue, herr, hlost, hinst, hbusy]
  decide

@[simp] theorem State.reset_statusValue : State.reset.statusValue = 0 := statusValue_eq_zero rfl rfl rfl rfl

@[simp] theorem State.read_reset_inBuf (i : Nat) : Memory.read State.reset.inBuf i = 0x00 := Memory.read_nil i

@[simp] theorem State.read_reset_outBuf (i : Nat) : Memory.read State.reset.outBuf i = 0x00 := Memory.read_nil i

/-- Settles O1: the two digests as lists, STATUS from its four fields, and both buffers from their empty listing; every
other row of R200 is the field itself. -/
theorem resetLeavesTheStatedValues : Obligations.ResetLeavesTheStatedValues := by
  have hK : State.reset.K.toList = List.replicate 32 0x00 := Vector.toList_replicate
  have hV : State.reset.V.toList = List.replicate 32 0x01 := Vector.toList_replicate
  exact ⟨hK, hV, rfl, rfl, rfl, rfl, rfl, rfl, rfl, State.reset_statusValue, rfl, fun i _ => State.read_reset_inBuf i,
    fun i _ => State.read_reset_outBuf i⟩

end Sys2Proof.Machine
end

section
/-! PROOFS. Decoding and encoding agree (30_encoding.md R81 to R89): the round trip both ways, the reserved encodings (R87) and
the assembler's lines (R90, R92). -/

namespace Sys2Proof

/-! ## Which operands fit (R83) -/

theorem wellFormed_instantiate_iff (s e p : Nat) :
    (Instr.instantiate s e p).wellFormed = true ↔ s < 512 ∧ e < 256 ∧ p < 256 := by
  simp [Instr.wellFormed, strengthFits, seedLengthFits, and_assoc]

theorem wellFormed_reseed_iff (e : Nat) : (Instr.reseed e).wellFormed = true ↔ e < 256 := by
  simp [Instr.wellFormed, seedLengthFits]

theorem wellFormed_generate_iff (s l : Nat) : (Instr.generate s l).wellFormed = true ↔ s < 512 ∧ l < 65536 := by
  simp [Instr.wellFormed, strengthFits, outputLengthFits]

/-! ## The word of a command as a number (R89) -/

theorem toNat_encode_instantiate {s e p : Nat} (hs : s < 512) (he : e < 256) (hp : p < 256) :
    (encode (.instantiate s e p)).toNat = 1 + s * 2 ^ 4 + e * 2 ^ 13 + p * 2 ^ 21 :=
  (toNat_encE (by decide) hs he hp).1

theorem toNat_encode_reseed_eq_sum {e : Nat} (he : e < 256) : (encode (.reseed e)).toNat = 2 + e * 2 ^ 13 := by
  simpa [encode] using (toNat_encE (op := 2) (s := 0) (p := 0) (by decide) (by decide) he (by decide)).1

theorem toNat_encode_generate {s l : Nat} (hs : s < 512) (hl : l < 65536) :
    (encode (.generate s l)).toNat = 3 + s * 2 ^ 4 + l * 2 ^ 13 :=
  (toNat_encG (by decide) hs hl).1

/-! ## The round trip (R86) -/

/-- Settles O5: the word is the sum of its fields, so each field reads back its operand. -/
theorem decodeOfEncodeIsTheCommand : Obligations.DecodeOfEncodeIsTheCommand := by
  intro i hi
  cases i with
  | instantiate s e p =>
    obtain ⟨hs, he, hp⟩ := (wellFormed_instantiate_iff s e p).1 hi
    rw [decode_eq_instantiate_iff, opField_eq, rsvField_eq, strengthField_eq, elenField_eq, plenField_eq,
      toNat_encode_instantiate hs he hp]
    omega
  | reseed e =>
    have he : e < 256 := (wellFormed_reseed_iff e).1 hi
    rw [decode_eq_reseed_iff, opField_eq, rsvField_eq, strengthField_eq, elenField_eq, plenField_eq,
      toNat_encode_reseed_eq_sum he]
    omega
  | generate s l =>
    obtain ⟨hs, hl⟩ := (wellFormed_generate_iff s l).1 hi
    rw [decode_eq_generate_iff, opField_eq, rsvField_eq, strengthField_eq, olenField_eq, toNat_encode_generate hs hl]
    omega

/-- Settles O6: the fields of a legal word cover its 32 bits, so it is the sum of them, which is its command's word. -/
theorem encodeOfDecodeIsTheWord : Obligations.EncodeOfDecodeIsTheWord := by
  intro w i hdec
  have hw : w.toNat < 2 ^ 32 := w.isLt
  cases i with
  | instantiate s e p =>
    rw [decode_eq_instantiate_iff, opField_eq, rsvField_eq, strengthField_eq, elenField_eq, plenField_eq] at hdec
    have hfits : s < 512 ∧ e < 256 ∧ p < 256 := by omega
    obtain ⟨hs, he, hp⟩ := hfits
    refine ⟨(wellFormed_instantiate_iff s e p).2 ⟨hs, he, hp⟩, BitVec.eq_of_toNat_eq ?_⟩
    rw [toNat_encode_instantiate hs he hp]
    omega
  | reseed e =>
    rw [decode_eq_reseed_iff, opField_eq, rsvField_eq, strengthField_eq, elenField_eq, plenField_eq] at hdec
    have he : e < 256 := by omega
    refine ⟨(wellFormed_reseed_iff e).2 he, BitVec.eq_of_toNat_eq ?_⟩
    rw [toNat_encode_reseed_eq_sum he]
    omega
  | generate s l =>
    rw [decode_eq_generate_iff, opField_eq, rsvField_eq, strengthField_eq, olenField_eq] at hdec
    have hfits : s < 512 ∧ l < 65536 := by omega
    obtain ⟨hs, hl⟩ := hfits
    refine ⟨(wellFormed_generate_iff s l).2 ⟨hs, hl⟩, BitVec.eq_of_toNat_eq ?_⟩
    rw [toNat_encode_generate hs hl]
    omega

/-! ## The reserved encodings (R87) -/

/-- A word decodes to ILLEGAL when no line of `decode` gives a command for it. -/
theorem decode_illegal_iff (w : Word) :
    (∃ why, decode w = .illegal why) ↔
      ¬ (opField w = 1 ∧ rsvField w = 0) ∧
      ¬ (opField w = 2 ∧ rsvField w = 0 ∧ strengthField w = 0 ∧ plenField w = 0) ∧
      ¬ (opField w = 3 ∧ rsvField w = 0) := by
  unfold decode
  split_ifs <;> simp_all

/-- Settles O7: the three failing lines of `decode`, with each field as a part of the word's number. -/
theorem reservedEncodingsAreExactlyTheIllegalWords : Obligations.ReservedEncodingsAreExactlyTheIllegalWords := by
  intro w
  rw [decode_illegal_iff, opField_eq, rsvField_eq, strengthField_eq, plenField_eq]
  omega

end Sys2Proof

namespace Sys2Proof.Machine

/-! ## The assembler (R90, R92) -/

theorem assemble_eq_some_iff {m : Mnemonic} {ops : List Nat} {i : Instr} (hline : lineCommand m ops = some i) (w : Word) :
    assemble m ops = some w ↔ i.wellFormed = true ∧ encode i = w := by
  simp [assemble, hline]

theorem isSome_assemble_iff {m : Mnemonic} {ops : List Nat} {i : Instr} (hline : lineCommand m ops = some i) :
    (assemble m ops).isSome = true ↔ i.wellFormed = true := by
  simp [Option.isSome_iff_exists, assemble_eq_some_iff hline]

/-- The assembler's word is the word of a well-formed command, so decoding gives that command back. -/
theorem decode_of_assemble {m : Mnemonic} {ops : List Nat} {i : Instr} {w : Word} (hline : lineCommand m ops = some i)
    (h : assemble m ops = some w) : decode w = .command i := by
  obtain ⟨hfits, rfl⟩ := (assemble_eq_some_iff hline w).1 h
  exact decodeOfEncodeIsTheCommand i hfits

/-- Only a line has a word (log entry 17). -/
theorem exists_lineCommand_of_assemble {m : Mnemonic} {ops : List Nat} {w : Word} (h : assemble m ops = some w) :
    ∃ i, lineCommand m ops = some i := by
  cases hline : lineCommand m ops with
  | none => simp [assemble, hline] at h
  | some i => exact ⟨i, rfl⟩

/-- Settles O9: the round trip on the line's command, the three operand ranges, and the defaults, which are lines of one
command. -/
theorem assembledLineDecodesToItsCommand : Obligations.AssembledLineDecodesToItsCommand := by
  refine ⟨fun m ops w h => ?_, fun _ _ _ _ => decode_of_assemble rfl, fun _ _ => decode_of_assemble rfl,
    fun _ _ _ => decode_of_assemble rfl, fun e p s => ?_, fun e => ?_, fun n s => ?_, fun _ _ _ => ⟨rfl, rfl, rfl⟩⟩
  · obtain ⟨i, hline⟩ := exists_lineCommand_of_assemble h
    exact ⟨i, hline, decode_of_assemble hline h⟩
  · rw [isSome_assemble_iff rfl, wellFormed_instantiate_iff]
    omega
  · rw [isSome_assemble_iff rfl, wellFormed_reseed_iff]
    omega
  · rw [isSome_assemble_iff rfl, wellFormed_generate_iff]
    omega

end Sys2Proof.Machine
end

section
/-! PROOFS. What a command reads and writes (41_drbg_commands.md): frames, the host's side, determinism, the entropy minima and
the regions of R168. -/

namespace Sys2Proof.Machine

/-! ## What no command writes -/

/-- The fields that no command writes: `busy`, `cmd`, `cmd_lost`, IN_BUF, the host's side and the place. -/
structure CommandFrame (s t : State) : Prop where
  busy    : t.busy = s.busy
  cmd     : t.cmd = s.cmd
  cmdLost : t.cmdLost = s.cmdLost
  inBuf   : t.inBuf = s.inBuf
  events  : t.events = s.events
  replies : t.replies = s.replies
  draws   : t.draws = s.draws
  place   : t.place = s.place

theorem complete_frame (code : ResultCode) (s : State) : CommandFrame s (s.complete code) :=
  ⟨rfl, rfl, rfl, rfl, rfl, rfl, rfl, rfl⟩

theorem seededState_frame (r e p : Nat) (s : State) : CommandFrame s (seededState r e p s) := by
  rw [seededState_eq]
  exact ⟨rfl, rfl, rfl, rfl, rfl, rfl, rfl, rfl⟩

theorem reseededState_frame (e : Nat) (s : State) : CommandFrame s (reseededState e s) := by
  rw [reseededState_eq]
  exact ⟨rfl, rfl, rfl, rfl, rfl, rfl, rfl, rfl⟩

theorem generateBytes_frame (l : Nat) (s : State) : CommandFrame s (generateBytes l s) := by
  rw [generateBytes_eq]
  exact ⟨rfl, rfl, rfl, rfl, rfl, rfl, rfl, rfl⟩

/-- Every command completes inside the frame. -/
theorem exec_frame (i : Instr) (s : State) : ∃ t, exec i s = .next t ∧ CommandFrame s t := by
  obtain ⟨t, hexec, ⟨code, -, rfl⟩ | ⟨r, e, p, -, -, -, -, -, rfl⟩ | ⟨e, -, -, -, -, rfl⟩ |
    ⟨r, l, -, -, -, -, -, rfl⟩⟩ := exec_cases i s
  · exact ⟨_, hexec, complete_frame code s⟩
  · exact ⟨_, hexec, seededState_frame r e p s⟩
  · exact ⟨_, hexec, reseededState_frame e s⟩
  · exact ⟨_, hexec, generateBytes_frame l s⟩

/-! ## What each success leaves besides -/

@[simp] theorem seededState_inst (r e p : Nat) (s : State) : (seededState r e p s).inst = true := rfl

@[simp] theorem seededState_outBuf (r e p : Nat) (s : State) : (seededState r e p s).outBuf = s.outBuf := by
  rw [seededState_eq]

@[simp] theorem reseededState_strength (e : Nat) (s : State) : (reseededState e s).strength = s.strength := by
  rw [reseededState_eq]

@[simp] theorem reseededState_inst (e : Nat) (s : State) : (reseededState e s).inst = s.inst := by rw [reseededState_eq]

@[simp] theorem reseededState_outBuf (e : Nat) (s : State) : (reseededState e s).outBuf = s.outBuf := by
  rw [reseededState_eq]

@[simp] theorem generateBytes_strength (l : Nat) (s : State) : (generateBytes l s).strength = s.strength := by
  rw [generateBytes_eq]

/-- INSTANTIATE never touches OUT_BUF. -/
theorem exec_instantiate_outBuf {r e p : Nat} {s t : State} (h : exec (.instantiate r e p) s = .next t) :
    t.outBuf = s.outBuf := by
  rw [exec_instantiate] at h
  split_ifs at h <;> cases h <;> simp

/-- RESEED writes neither the strength nor `inst`, and never touches OUT_BUF. -/
theorem exec_reseed_keeps {e : Nat} {s t : State} (h : exec (.reseed e) s = .next t) :
    t.outBuf = s.outBuf ∧ t.strength = s.strength ∧ t.inst = s.inst := by
  rw [exec_reseed] at h
  split_ifs at h <;> cases h <;> simp

/-- GENERATE writes neither the strength nor `inst`, and of OUT_BUF only the first `l` bytes, when it succeeds. -/
theorem exec_generate_keeps {r l : Nat} {s t : State} (h : exec (.generate r l) s = .next t) :
    t.strength = s.strength ∧ t.inst = s.inst ∧
      ∀ a, (t.err = .ok → l ≤ a) → Memory.read t.outBuf a = Memory.read s.outBuf a := by
  rw [exec_generate] at h
  split_ifs at h <;> cases h
  case neg => exact ⟨by simp, by simp, fun a ha => read_generateBytes_outBuf_of_ge s (ha (by simp))⟩
  all_goals exact ⟨rfl, rfl, fun _ _ => rfl⟩

/-- Settles O25: the frame of every command, and what INSTANTIATE and RESEED keep besides. -/
theorem seedingCommandsFrame : Obligations.SeedingCommandsFrame := by
  intro i s hi
  obtain ⟨t, hexec, hframe⟩ := exec_frame i s
  have hkeeps : t.outBuf = s.outBuf ∧ ((∃ e, i = .reseed e) → t.strength = s.strength ∧ t.inst = s.inst) := by
    obtain ⟨r, e, p, rfl⟩ | ⟨e, rfl⟩ := hi
    · exact ⟨exec_instantiate_outBuf hexec, fun ⟨_, hreseed⟩ => nomatch hreseed⟩
    · exact ⟨(exec_reseed_keeps hexec).1, fun _ => (exec_reseed_keeps hexec).2⟩
  obtain ⟨houtBuf, hreseed⟩ := hkeeps
  exact ⟨t, hexec, hframe.busy, hframe.cmd, hframe.cmdLost, hframe.events, hframe.replies, hframe.draws, hframe.place,
    fun a => by rw [hframe.inBuf], fun a => by rw [houtBuf], hreseed⟩

/-- Settles O26: the frame of every command, and what GENERATE keeps besides. -/
theorem generateFrame : Obligations.GenerateFrame := by
  intro r l s
  obtain ⟨t, hexec, hframe⟩ := exec_frame (.generate r l) s
  obtain ⟨hstrength, hinst, houtBuf⟩ := exec_generate_keeps hexec
  exact ⟨t, hexec, hstrength, hinst, hframe.busy, hframe.cmd, hframe.cmdLost, hframe.events, hframe.replies, hframe.draws,
    hframe.place, fun a => by rw [hframe.inBuf], houtBuf⟩

/-! ## What no command reads -/

/-- The state with another IN_BUF and another host side: what lies outside the engine. -/
def State.withOutside (s : State) (m : Memory) (es : List Event) (rs : List Reply) (d j : Nat) : State :=
  { s.withHost es rs d j with inBuf := m }

theorem withOutside_own_inBuf (s : State) (es : List Event) (rs : List Reply) (d j : Nat) :
    s.withOutside s.inBuf es rs d j = s.withHost es rs d j := rfl

theorem withOutside_own_host (s : State) (m : Memory) :
    s.withOutside m s.events s.replies s.draws s.place = { s with inBuf := m } := rfl

/-- How many bytes of IN_BUF a command reads, from index 0 (20_memory.md R71). -/
def inputLength : Instr → Nat
  | .instantiate _ e p => e + p
  | .reseed e => e
  | .generate _ _ => 0

theorem slice_zero_congr {m m' : Memory} {n : Nat} (h : ∀ i, i < n → Memory.read m i = Memory.read m' i) :
    Memory.slice m 0 n = Memory.slice m' 0 n :=
  Memory.slice_congr fun k _ hk => h k (by omega)

/-- UPDATE reads nothing outside the engine but its data. -/
theorem update_withOutside (data : Bytes) (s : State) (m : Memory) (es : List Event) (rs : List Reply) (d j : Nat) :
    update data (s.withOutside m es rs d j) = (update data s).withOutside m es rs d j := by
  rw [update_congr (s := s) (t := s.withOutside m es rs d j) data rfl rfl, update_eq data s]
  rfl

section
variable (s : State) {m : Memory} (es : List Event) (rs : List Reply) (d j : Nat)

theorem seededState_withOutside (r : Nat) {e p : Nat} (h : ∀ i, i < e + p → Memory.read m i = Memory.read s.inBuf i) :
    seededState r e p (s.withOutside m es rs d j) = (seededState r e p s).withOutside m es rs d j := by
  have hseed : seedOf e p (s.withOutside m es rs d j) = seedOf e p s := by
    rw [seedOf_eq_slice, seedOf_eq_slice]
    exact slice_zero_congr h
  unfold seededState
  rw [hseed]
  exact congrArg (fun t : State => t.setInst.complete .ok) (update_withOutside _ (s.construct _) m es rs d j)

theorem reseededState_withOutside {e : Nat} (h : ∀ i, i < e → Memory.read m i = Memory.read s.inBuf i) :
    reseededState e (s.withOutside m es rs d j) = (reseededState e s).withOutside m es rs d j := by
  have hentropy : entropyOf e (s.withOutside m es rs d j) = entropyOf e s := slice_zero_congr h
  unfold reseededState
  rw [hentropy, update_withOutside]
  rfl

theorem generateBytes_withOutside (l : Nat) :
    generateBytes l (s.withOutside m es rs d j) = (generateBytes l s).withOutside m es rs d j := by
  rw [generateBytes_eq_blocks, generateBytes_eq_blocks]
  rfl

/-- A command reads nothing outside the engine but its slice of IN_BUF: its checks are on the engine's registers, and each
success was just shown. -/
theorem exec_withOutside (i : Instr) (h : ∀ a, a < inputLength i → Memory.read m a = Memory.read s.inBuf a) :
    exec i (s.withOutside m es rs d j) = mapNext (fun t => t.withOutside m es rs d j) (exec i s) := by
  cases i with
  | instantiate r e p =>
    rw [exec_instantiate, exec_instantiate, seededState_withOutside s es rs d j r h]
    split_ifs <;> rfl
  | reseed e =>
    rw [exec_reseed, exec_reseed, reseededState_withOutside (e := e) s es rs d j h]
    simp only [apply_ite (mapNext _)]
    rfl
  | generate r l =>
    rw [exec_generate, exec_generate, generateBytes_withOutside]
    simp only [apply_ite (mapNext _)]
    rfl

end

/-- Settles O29: another host side with the same IN_BUF, which the command leaves. -/
theorem commandsIgnoreTheHostSide : Obligations.CommandsIgnoreTheHostSide := by
  intro i s es rs d j
  obtain ⟨t, hexec, hframe⟩ := exec_frame i s
  have houtside := exec_withOutside s (m := s.inBuf) es rs d j i fun _ _ => rfl
  rw [hexec, mapNext] at houtside ⊢
  rw [← withOutside_own_inBuf, ← withOutside_own_inBuf, houtside, hframe.inBuf]

/-- Another IN_BUF with the same host side, which the command leaves. -/
theorem exec_withInBuf (i : Instr) (s : State) {m : Memory}
    (h : ∀ a, a < inputLength i → Memory.read m a = Memory.read s.inBuf a) :
    exec i { s with inBuf := m } = mapNext (fun t => { t with inBuf := m }) (exec i s) := by
  obtain ⟨t, hexec, hframe⟩ := exec_frame i s
  have houtside := exec_withOutside s s.events s.replies s.draws s.place i h
  rw [hexec, mapNext] at houtside ⊢
  rw [← withOutside_own_host, ← withOutside_own_host, houtside, hframe.events, hframe.replies, hframe.draws, hframe.place]

/-- Settles O20: RESEED's input is `e` bytes long, GENERATE's is empty. -/
theorem reseedAndGenerateReadOnlyTheirSlice : Obligations.ReseedAndGenerateReadOnlyTheirSlice :=
  fun e r l s _ => ⟨exec_withInBuf (.reseed e) s, exec_withInBuf (.generate r l) s fun _ hlt => absurd hlt (Nat.not_lt_zero _)⟩

/-! ## INSTANTIATE's result (R133, R135, R136) -/

/-- The checks of INSTANTIATE are on its operands alone: with the same operands it fails in every state, with one code, or
succeeds in every state. -/
theorem exec_instantiate_uniform (r e p : Nat) :
    (∃ code, code ≠ .ok ∧ ∀ s, exec (.instantiate r e p) s = .next (s.complete code)) ∨
      ∀ s, exec (.instantiate r e p) s = .next (seededState r e p s) := by
  simp only [exec_instantiate]
  split_ifs
  case neg => exact .inr fun _ => rfl
  all_goals exact .inl ⟨_, by decide, fun _ => rfl⟩

/-- INSTANTIATE's success with one seed leaves one engine, whatever the state before it (R136). -/
theorem seededState_congr (r : Nat) {e p : Nat} {s₁ s₂ : State}
    (h : ∀ i, i < e + p → Memory.read s₁.inBuf i = Memory.read s₂.inBuf i) :
    (seededState r e p s₁).K = (seededState r e p s₂).K ∧ (seededState r e p s₁).V = (seededState r e p s₂).V ∧
      (seededState r e p s₁).ctr = (seededState r e p s₂).ctr ∧
      (seededState r e p s₁).strength = (seededState r e p s₂).strength := by
  have hseed : seedOf e p s₁ = seedOf e p s₂ := by
    rw [seedOf_eq_slice, seedOf_eq_slice, slice_zero_congr h]
  obtain ⟨hK, hV⟩ := update_KV_congr (data := seedOf e p s₂) (s := s₁.construct (BitVec.ofNat 9 (resolve r)))
    (t := s₂.construct (BitVec.ofNat 9 (resolve r))) rfl rfl
  rw [seededState_eq, seededState_eq, hseed]
  exact ⟨hK, hV, rfl, rfl⟩

/-- Settles O16: both runs fail with the code their operands give, or both succeed with the same seed. -/
theorem instantiateDependsOnlyOnItsSeed : Obligations.InstantiateDependsOnlyOnItsSeed := by
  intro r e p s₁ s₂ h
  obtain ⟨code, hcode, hfails⟩ | hsucceeds := exec_instantiate_uniform r e p
  · exact ⟨_, _, hfails s₁, hfails s₂, rfl, rfl, fun hok => absurd hok hcode⟩
  · obtain ⟨hK, hV, hctr, hstrength⟩ := seededState_congr r h
    exact ⟨_, _, hsucceeds s₁, hsucceeds s₂, by simp, by simp, fun _ => ⟨hK, hV, hctr, hstrength, by simp⟩⟩

/-- The table of R133: the bytes whose bits are half again the resolved strength. -/
theorem instantiate_minimum_le_iff (r e : Nat) :
    (if r ≤ 112 then 21 else if r ≤ 128 then 24 else if r ≤ 192 then 36 else 48) ≤ e ↔
      3 * resolve r ≤ 2 * (8 * e) := by
  unfold resolve
  split_ifs <;> omega

/-- Settles O15: the table's minimum is the check of R133, and the bounds on the operands pass the other three. -/
theorem instantiateEntropyMinimum : Obligations.InstantiateEntropyMinimum := by
  intro r e p s hr hp he minimum
  have hminimum : minimum ≤ e ↔ 3 * resolve r ≤ 2 * (8 * e) := instantiate_minimum_le_iff r e
  by_cases hmin : minimum ≤ e
  · exact ⟨_, exec_instantiate_of_checks s hr (by omega) (hminimum.1 hmin) (by omega), fun _ => rfl,
      fun hlt => absurd hmin (Nat.not_le.2 hlt)⟩
  · obtain ⟨-, -, hfails, -⟩ := instantiateReportsItsFirstFailingCheck r e p s
    exact ⟨_, hfails hr (by omega) (by omega), fun hle => absurd hle hmin, fun _ => rfl⟩

/-! ## RESEED's minimum (R151) -/

/-- Settles O19: each row of the table has a strength of eight times its bytes, which is the check of R151. -/
theorem reseedEntropyMinimum : Obligations.ReseedEntropyMinimum := by
  intro e s hinst he x hx hstrength
  have hrow : ∀ y ∈ [(112, 14), (128, 16), (192, 24), (256, 32)], y.1 = 8 * y.2 := by decide
  have hbytes : s.strength.toNat = 8 * x.2 := hstrength.trans (hrow x hx)
  by_cases hmin : x.2 ≤ e
  · exact ⟨_, exec_reseed_of_checks hinst (by omega) (by omega), fun _ => rfl,
      fun hlt => absurd hmin (Nat.not_le.2 hlt)⟩
  · obtain ⟨-, hfails, -⟩ := reseedReportsItsFirstFailingCheck e s
    exact ⟨_, hfails hinst (by omega), fun hle => absurd hle hmin, fun _ => rfl⟩

/-! ## Two GENERATEs from one state (R164, R165) -/

/-- The length enters `K` and `V` only through the number of blocks. -/
theorem generateBytes_KV_congr {l₁ l₂ : Nat} (s : State) (h : (l₁ + 31) / 32 = (l₂ + 31) / 32) :
    (generateBytes l₁ s).K = (generateBytes l₂ s).K ∧ (generateBytes l₁ s).V = (generateBytes l₂ s).V := by
  rw [generateBytes_eq_blocks, generateBytes_eq_blocks, h]
  exact ⟨rfl, rfl⟩

/-- Settles O23: byte `i` of the output does not depend on the length asked for, nor does anything on the strength. -/
theorem generatesFromOneStateAgree : Obligations.GeneratesFromOneStateAgree := by
  intro r₁ l₁ r₂ l₂ s hinst hctr hl₁ hl₂ hr₁ hr₂
  refine ⟨_, _, exec_generate_of_checks hinst hl₁ hr₁ hctr, exec_generate_of_checks hinst hl₂ hr₂ hctr,
    fun i hi₁ hi₂ => ?_, generateBytes_KV_congr s⟩
  rw [read_generateBytes_outBuf_of_lt s hi₁, read_generateBytes_outBuf_of_lt s hi₂]

/-! ## The regions (R168) -/

theorem lifecycle_eq_uninst_iff (s : State) : s.lifecycle = .uninst ↔ s.inst = false := by
  unfold State.lifecycle
  split_ifs <;> simp_all

theorem lifecycle_eq_ready_iff (s : State) : s.lifecycle = .ready ↔ s.inst = true ∧ s.ctr.toNat < 10000 := by
  unfold State.lifecycle
  split_ifs <;> simp_all

theorem lifecycle_eq_exhausted_iff (s : State) :
    s.lifecycle = .exhausted ↔ s.inst = true ∧ 10000 ≤ s.ctr.toNat := by
  unfold State.lifecycle
  split_ifs <;> simp_all

theorem lifecycle_complete (s : State) (code : ResultCode) : (s.complete code).lifecycle = s.lifecycle := rfl

theorem lifecycle_seededState (r e p : Nat) (s : State) : (seededState r e p s).lifecycle = .ready := by
  rw [lifecycle_eq_ready_iff]
  simp

theorem lifecycle_reseededState {s : State} (e : Nat) (hinst : s.inst = true) :
    (reseededState e s).lifecycle = .ready := by
  rw [lifecycle_eq_ready_iff]
  simp [hinst]

/-- GENERATE's success leads to EXHAUSTED exactly with its 9999th output since the seeding. -/
theorem lifecycle_generateBytes {s : State} (l : Nat) (hinst : s.inst = true) (hctr : s.ctr.toNat < 10000) :
    (generateBytes l s).lifecycle = if s.ctr.toNat = 9999 then .exhausted else .ready := by
  have hnext := toNat_generateBytes_ctr l hctr
  split_ifs with h
  · rw [lifecycle_eq_exhausted_iff, generateBytes_inst]
    exact ⟨hinst, by omega⟩
  · rw [lifecycle_eq_ready_iff, generateBytes_inst]
    exact ⟨hinst, by omega⟩

/-- How a command moves between the regions, by its outcome (R168). -/
theorem exec_lifecycle (i : Instr) (s : State) :
    ∃ t, exec i s = .next t ∧
      (t.err ≠ .ok → t.lifecycle = s.lifecycle) ∧
      (∀ r e p, i = .instantiate r e p → t.err = .ok → t.lifecycle = .ready) ∧
      (∀ e, i = .reseed e → t.err = .ok → s.lifecycle ≠ .uninst ∧ t.lifecycle = .ready) ∧
      (∀ r l, i = .generate r l → t.err = .ok →
        s.lifecycle = .ready ∧ t.lifecycle = if s.ctr.toNat = 9999 then .exhausted else .ready) := by
  obtain ⟨t, hexec, hcases⟩ := exec_cases i s
  refine ⟨t, hexec, ?_⟩
  obtain ⟨code, hcode, rfl⟩ | ⟨r, e, p, rfl, -, -, -, -, rfl⟩ | ⟨e, rfl, hinst, -, -, rfl⟩ |
    ⟨r, l, rfl, hinst, -, -, hctr, rfl⟩ := hcases
  · exact ⟨fun _ => lifecycle_complete s code, fun _ _ _ _ hok => absurd hok hcode, fun _ _ hok => absurd hok hcode,
      fun _ _ _ hok => absurd hok hcode⟩
  · exact ⟨fun hfail => absurd rfl hfail, fun _ _ _ _ _ => lifecycle_seededState r e p s, nofun, nofun⟩
  · refine ⟨fun hfail => absurd rfl hfail, nofun, fun _ _ _ => ⟨?_, lifecycle_reseededState e hinst⟩, nofun⟩
    rw [ne_eq, lifecycle_eq_uninst_iff, hinst]
    decide
  · exact ⟨fun hfail => absurd (generateBytes_err l s) hfail, nofun, nofun, fun _ _ _ _ =>
      ⟨(lifecycle_eq_ready_iff s).2 ⟨hinst, hctr⟩, lifecycle_generateBytes l hinst hctr⟩⟩

/-- In EXHAUSTED a GENERATE that is otherwise legal asks for a reseed. -/
theorem err_of_exec_generate_exhausted {r l : Nat} {s t : State} (hexec : exec (.generate r l) s = .next t)
    (hexhausted : s.lifecycle = .exhausted) (hl : 8 * l ≤ 7500) (hr : r ≤ s.strength.toNat) :
    t.err = .reseedRequired := by
  obtain ⟨hinst, hctr⟩ := (lifecycle_eq_exhausted_iff s).1 hexhausted
  obtain ⟨-, -, -, hfails⟩ := generateReportsItsFirstFailingCheck r l s
  cases hexec.symm.trans (hfails hinst hl hr hctr)
  rfl

end Sys2Proof.Machine
end

section
/-! PROOFS. Host accesses (20_memory.md R55 to R61): what each can do, what it returns, and what it never reaches; and canonical
buffers that read alike. -/

namespace Sys2Proof.Machine

/-! ## One inversion lemma for an access that is performed -/

/-- An access that is not refused reaches a register at the register's own offset and in full width (R55.2, R55.4). -/
theorem eq_register_of_shape {a b : Offset} {n : Nat} (h : refusedShape a n = none)
    (hb : b.toNat % 4 = 0 ∧ b.toNat < 0x00C) (hlow : b.toNat ≤ a.toNat) (hhigh : a.toNat < b.toNat + 4) :
    a = b ∧ n = 4 := by
  obtain ⟨-, ha, -, hn⟩ := (refusedShape_eq_none_iff a n).1 h
  obtain rfl : n = 4 := hn (by omega)
  exact ⟨BitVec.eq_of_toNat_eq (by omega), rfl⟩

theorem eq_cmd_of_shape {a : Offset} {n : Nat} (h : refusedShape a n = none) (hr : regionOf a.toNat = .cmd) :
    a = 0x000 ∧ n = 4 :=
  eq_register_of_shape h (by decide) (Nat.zero_le _) (regionOf_eq_cmd.1 hr)

theorem eq_status_of_shape {a : Offset} {n : Nat} (h : refusedShape a n = none) (hr : regionOf a.toNat = .status) :
    a = 0x004 ∧ n = 4 :=
  eq_register_of_shape h (by decide) (regionOf_eq_status.1 hr).1 (regionOf_eq_status.1 hr).2

/-- Everything an access that the block performs can do: a read's reply, a CMD write, a STATUS write, or a write of IN_BUF
inside the buffer while idle. -/
theorem hostAccess_effect {acc : Access} {s t : State} (h : hostAccess acc s = .next t) :
    (∃ a n, acc = .read a n ∧ t = memRead a n s) ∨
    (∃ v, acc = .write 0x000 4 v ∧ t = s.issue v) ∨
    (∃ v, acc = .write 0x004 4 v ∧ t = s.writeStatus v) ∨
    (∃ a n v, acc = .write a n v ∧ 0x100 ≤ a.toNat ∧ inBufIndex a + n ≤ 256 ∧ s.busy = false ∧
      t = { s with inBuf := Memory.writeBytes s.inBuf (inBufIndex a) (laneBytes n v) }) := by
  obtain ⟨hok, ⟨a, n, rfl, rfl⟩ | ⟨a, n, v, rfl, hwrite⟩⟩ := hostAccess_cases h
  · exact .inl ⟨a, n, rfl, (memRead_eq a n s).symm⟩
  · obtain ⟨hshape, -⟩ := (refused_write_eq_none_iff s a n v).1 hok
    obtain ⟨hr, rfl⟩ | ⟨hr, rfl⟩ | ⟨hr, hidle, rfl⟩ := hwrite
    · obtain ⟨rfl, rfl⟩ := eq_cmd_of_shape hshape hr
      exact .inr (.inl ⟨v, rfl, rfl⟩)
    · obtain ⟨rfl, rfl⟩ := eq_status_of_shape hshape hr
      exact .inr (.inr (.inl ⟨v, rfl, rfl⟩))
    · exact .inr (.inr (.inr ⟨a, n, v, rfl, (regionOf_eq_inBuf.1 hr).1, inBuf_write_fits hshape hr, hidle, rfl⟩))

/-! ## The engine is out of reach (10_state.md R25) -/

/-- The fields that belong to the engine: its registers, `inst`, `err`, `out_count` and OUT_BUF. -/
structure EngineFrame (s t : State) : Prop where
  K        : t.K = s.K
  V        : t.V = s.V
  ctr      : t.ctr = s.ctr
  strength : t.strength = s.strength
  inst     : t.inst = s.inst
  err      : t.err = s.err
  outCount : t.outCount = s.outCount
  outBuf   : t.outBuf = s.outBuf

theorem EngineFrame.trans {s t u : State} (h₁ : EngineFrame s t) (h₂ : EngineFrame t u) : EngineFrame s u :=
  ⟨h₂.K.trans h₁.K, h₂.V.trans h₁.V, h₂.ctr.trans h₁.ctr, h₂.strength.trans h₁.strength, h₂.inst.trans h₁.inst,
    h₂.err.trans h₁.err, h₂.outCount.trans h₁.outCount, h₂.outBuf.trans h₁.outBuf⟩

theorem withEvents_engineFrame (s : State) (es : List Event) : EngineFrame s (s.withEvents es) :=
  ⟨rfl, rfl, rfl, rfl, rfl, rfl, rfl, rfl⟩

theorem hostAccess_engineFrame {acc : Access} {s t : State} (h : hostAccess acc s = .next t) : EngineFrame s t := by
  obtain ⟨a, n, -, rfl⟩ | ⟨v, -, rfl⟩ | ⟨v, -, rfl⟩ | ⟨a, n, v, -, -, -, -, rfl⟩ := hostAccess_effect h
  · rw [memRead_eq]
    exact ⟨rfl, rfl, rfl, rfl, rfl, rfl, rfl, rfl⟩
  · constructor <;> simp
  · constructor <;> simp
  · exact ⟨rfl, rfl, rfl, rfl, rfl, rfl, rfl, rfl⟩

section
variable (s : State) (k v : Digest) (c : BitVec 16) (st : BitVec 9)

theorem refused_withEngine (acc : Access) : refused (s.withEngine k v c st) acc = refused s acc := by
  cases acc <;> rfl

theorem memRead_withEngine (a : Offset) (n : Nat) :
    memRead a n (s.withEngine k v c st) = (memRead a n s).withEngine k v c st := by
  rw [memRead_eq, memRead_eq]
  rfl

theorem memWrite_withEngine (a : Offset) (n : Nat) (x : Word) :
    memWrite a n x (s.withEngine k v c st) = (memWrite a n x s).withEngine k v c st := by
  have hissue : (s.withEngine k v c st).issue x = (s.issue x).withEngine k v c st :=
    (apply_ite (fun t : State => t.withEngine k v c st) (s.busy = true) s.drop (s.accept x)).symm
  have hstatus : (s.withEngine k v c st).writeStatus x = (s.writeStatus x).withEngine k v c st :=
    (apply_ite (fun t : State => t.withEngine k v c st) (x.getLsbD 2 = true) { s with cmdLost := false } s).symm
  unfold memWrite
  split
  · exact hissue
  · exact hstatus
  all_goals rfl

/-- An access reads none of the engine's registers. -/
theorem hostAccess_withEngine (acc : Access) :
    hostAccess acc (s.withEngine k v c st) = mapNext (fun t => t.withEngine k v c st) (hostAccess acc s) := by
  have hperform : perform acc (s.withEngine k v c st) = (perform acc s).withEngine k v c st := by
    cases acc with
    | read a n => exact memRead_withEngine s k v c st a n
    | write a n x => exact memWrite_withEngine s k v c st a n x
  unfold hostAccess
  rw [refused_withEngine, hperform]
  cases refused s acc <;> rfl

end

/-- Settles O42: an access commutes with replacing the engine's registers, and stays inside the engine's frame. -/
theorem hostAccessNeverReachesTheEngineRegisters : Obligations.HostAccessNeverReachesTheEngineRegisters := by
  refine ⟨fun acc s k v c st => hostAccess_withEngine s k v c st acc, fun acc s t h => ?_⟩
  have hframe := hostAccess_engineFrame h
  exact ⟨hframe.K, hframe.V, hframe.ctr, hframe.strength, hframe.inst, hframe.err, hframe.outCount,
    fun i => by rw [hframe.outBuf]⟩

/-! ## A pending command (20_memory.md R69) -/

/-- While busy an access that the block performs leaves the command and its input, and is a read, a dropped CMD write or a
STATUS write: only `cmd_lost`, the replies and the draws can change. -/
theorem hostAccess_of_busy {acc : Access} {s t : State} (hbusy : s.busy = true) (h : hostAccess acc s = .next t) :
    t = { s with cmdLost := t.cmdLost, replies := t.replies, draws := t.draws } := by
  obtain ⟨a, n, -, rfl⟩ | ⟨v, -, rfl⟩ | ⟨v, -, rfl⟩ | ⟨a, n, v, -, -, -, hidle, -⟩ := hostAccess_effect h
  · rw [memRead_eq]
  · rw [State.issue_of_busy s v hbusy]
    rfl
  · unfold State.writeStatus
    split <;> rfl
  · simp [hbusy] at hidle

/-- Settles O43: what can change while busy, and R61's drop for a CMD write. -/
theorem pendingCommandAndInputAreFixed : Obligations.PendingCommandAndInputAreFixed := by
  intro acc s t hbusy h
  have ht := hostAccess_of_busy hbusy h
  refine ⟨by rw [ht]; exact hbusy, by rw [ht], fun i => by rw [ht], ?_⟩
  rintro n v rfl
  obtain ⟨_, _, hacc, -⟩ | ⟨w, hacc, rfl⟩ | ⟨_, hacc, -⟩ | ⟨_, _, _, -, -, -, hidle, -⟩ := hostAccess_effect h
  · cases hacc
  · exact State.issue_of_busy s w hbusy
  · simp at hacc
  · simp [hbusy] at hidle

/-! ## What a read returns (R56) -/

theorem hostAccess_read {s : State} {a : Offset} {n : Nat} (h : refusedShape a n = none) :
    hostAccess (.read a n) s = .next (memRead a n s) :=
  hostAccess_of_not_refused ((refused_read_eq_none_iff s a n).2 h)

theorem readValue_cmd {a : Offset} (hr : regionOf a.toNat = .cmd) (n : Nat) (s : State) : readValue s a n = s.cmd := by
  simp [readValue, hr]

theorem readValue_status {a : Offset} (hr : regionOf a.toNat = .status) (n : Nat) (s : State) :
    readValue s a n = s.statusValue := by
  simp [readValue, hr]

theorem readValue_outCount {a : Offset} (hr : regionOf a.toNat = .outCount) (n : Nat) (s : State) :
    readValue s a n = s.outCountValue := by
  simp [readValue, hr]

theorem readValue_outBuf_of_busy {a : Offset} (hr : regionOf a.toNat = .outBuf) (n : Nat) {s : State}
    (hbusy : s.busy = true) : readValue s a n = cutTo n (Config.busyRead s.place s.draws) := by
  simp [readValue, hr, hbusy]

theorem toNat_outCountValue (s : State) : s.outCountValue.toNat = s.outCount.toNat := by
  have hlt := s.outCount.isLt
  rw [State.outCountValue, BitVec.toNat_setWidth]
  omega

/-- A value cut to an access's width keeps its low bits (R56). -/
theorem toNat_cutTo {n : Nat} (hn : n ≤ 4) (v : Word) : (cutTo n v).toNat = v.toNat % 2 ^ (8 * n) := by
  have hpow : 2 ^ (8 * n) ≤ 2 ^ 32 := Nat.pow_le_pow_right (by decide) (by omega)
  have hlt : v.toNat % 2 ^ (8 * n) < 2 ^ (8 * n) := Nat.mod_lt _ (Nat.two_pow_pos _)
  rw [cutTo, BitVec.toNat_setWidth, BitVec.toNat_setWidth, Nat.mod_eq_of_lt (by omega)]

/-- Among the offsets a read may have, those from 0x400 up are OUT_BUF's, so a busy read there is a draw (R61). -/
theorem readDraws_eq_true_iff {a : Offset} {n : Nat} (h : refusedShape a n = none) (s : State) :
    readDraws s a = true ↔ s.busy = true ∧ 0x400 ≤ a.toNat := by
  obtain ⟨-, -, hreserved, -⟩ := (refusedShape_eq_none_iff a n).1 h
  rw [ne_eq, regionOf_eq_reserved] at hreserved
  have hregion : regionOf a.toNat = .outBuf ↔ 0x400 ≤ a.toNat := by
    rw [regionOf_eq_outBuf]
    omega
  simp [readDraws, hregion]

/-- Settles O37: the reply is `readValue`, read region by region. -/
theorem readsReturnTheStatedValues : Obligations.ReadsReturnTheStatedValues := by
  intro s a n hok x lanes
  have hshape : refusedShape a n = none := (refused_read_eq_none_iff s a n).1 hok
  have hn : n ≤ 4 := by
    obtain ⟨hwidth, -⟩ := refusedShape_none hshape
    omega
  refine ⟨readValue s a n, ?_, fun hx => ?_, fun hx => ?_, fun hx => ?_, fun hlow hhigh => ?_, fun hlow hhigh hidle => ?_,
    fun hlow hhigh hbusy => ?_⟩
  · simp only [hostAccess_read hshape, memRead_eq, readDraws_eq_true_iff hshape, x]
  · exact readValue_cmd (regionOf_eq_cmd.2 (by omega)) n s
  · exact readValue_status (regionOf_eq_status.2 (by omega)) n s
  · rw [readValue_outCount (regionOf_eq_outCount.2 (by omega)), toNat_outCountValue]
  · rw [readValue_inBuf (regionOf_eq_inBuf.2 ⟨hlow, hhigh⟩)]
    exact toNat_lanesValue_slice _ _ n hn
  · rw [readValue_outBuf_of_idle (regionOf_eq_outBuf.2 ⟨hlow, hhigh⟩) n hidle]
    exact toNat_lanesValue_slice _ _ n hn
  · rw [readValue_outBuf_of_busy (regionOf_eq_outBuf.2 ⟨hlow, hhigh⟩) n hbusy, toNat_cutTo hn]

/-! ## Reading back what was written (R52) -/

/-- The lanes of a value, stored and read back at one index, are its low bits. -/
theorem toNat_lanesValue_slice_writeBytes (m : Memory) (i : Nat) {n : Nat} (hn : n ≤ 4) (v : Word) :
    (lanesValue (Memory.slice (Memory.writeBytes m i (laneBytes n v)) i n)).toNat = v.toNat % 2 ^ (8 * n) := by
  rw [toNat_lanesValue_slice _ _ n hn, ← lanes_sum n v.toNat]
  refine congrArg List.sum (List.map_congr_left fun k hk => ?_)
  rw [read_writeBytes_laneBytes_add m i v (List.mem_range.1 hk)]

/-- Settles O40: the write stores the value's lanes, and the read at the same offset and width has its shape, so it is
performed and puts them together again. -/
theorem writeThenReadReturnsTheValue : Obligations.WriteThenReadReturnsTheValue := by
  intro s a n v hok hr
  obtain ⟨hshape, -⟩ := (refused_write_eq_none_iff s a n v).1 hok
  obtain ⟨hwidth, -⟩ := refusedShape_none hshape
  refine ⟨memWrite a n v s, memRead a n (memWrite a n v s), readValue (memWrite a n v s) a n,
    hostAccess_of_not_refused hok, hostAccess_read hshape, ?_, ?_⟩
  · rw [memRead_eq, memWrite_inBuf hr]
  · rw [readValue_inBuf hr, memWrite_inBuf hr]
    exact toNat_lanesValue_slice_writeBytes s.inBuf (inBufIndex a) (by omega) v

/-! ## Canonical buffers (log entry 9) -/

theorem Memory.read_cons (k i : Nat) (v : Byte) (m : Memory) :
    Memory.read ((k, v) :: m) i = if k = i then v else Memory.read m i := rfl

/-- A canonical listing starts at or before every byte that is not the unlisted one. -/
theorem Memory.head_le_of_read_ne {size k i : Nat} {v : Byte} {m : Memory} (hwf : Memory.wf size ((k, v) :: m) = true)
    (hread : Memory.read ((k, v) :: m) i ≠ Memory.unlisted) : k ≤ i := by
  obtain ⟨-, -, habove, -⟩ := (Memory.wf_cons_iff _ _ _ _).1 hwf
  by_contra hlt
  have hall : Memory.above i ((k, v) :: m) := List.forall_mem_cons.2 ⟨by omega, fun c hc => by have := habove c hc; omega⟩
  exact hread (Memory.read_of_above hall)

/-- The empty listing is the only canonical one that reads as unlisted everywhere. -/
theorem Memory.eq_nil_of_read {size : Nat} {m : Memory} (hwf : Memory.wf size m = true)
    (hread : ∀ i, i < size → Memory.read m i = Memory.unlisted) : m = [] := by
  cases m with
  | nil => rfl
  | cons c m =>
    obtain ⟨k, v⟩ := c
    obtain ⟨hk, hv, -, -⟩ := (Memory.wf_cons_iff _ _ _ _).1 hwf
    exact absurd (by simpa [Memory.read_cons] using hread k hk) hv

/-- Settles O46: by induction on one listing. The first cells have one index, since each listing starts at or before the
other's first byte; so they are one cell, and the rests, which read as unlisted there, read alike. -/
theorem canonicalBuffersThatReadAlikeAreEqual : Obligations.CanonicalBuffersThatReadAlikeAreEqual := by
  intro size m₁ m₂ h₁ h₂ hread
  induction m₁ generalizing m₂ with
  | nil => exact (Memory.eq_nil_of_read h₂ fun i hi => (hread i hi).symm).symm
  | cons c₁ m₁ ih =>
    obtain ⟨k₁, v₁⟩ := c₁
    cases m₂ with
    | nil => exact Memory.eq_nil_of_read h₁ hread
    | cons c₂ m₂ =>
      obtain ⟨k₂, v₂⟩ := c₂
      obtain ⟨hk₁, hv₁, habove₁, hwf₁⟩ := (Memory.wf_cons_iff _ _ _ _).1 h₁
      obtain ⟨hk₂, hv₂, habove₂, hwf₂⟩ := (Memory.wf_cons_iff _ _ _ _).1 h₂
      have hle₂ : k₂ ≤ k₁ := Memory.head_le_of_read_ne h₂ (by rw [← hread k₁ hk₁]; simpa [Memory.read_cons] using hv₁)
      have hle₁ : k₁ ≤ k₂ := Memory.head_le_of_read_ne h₁ (by rw [hread k₂ hk₂]; simpa [Memory.read_cons] using hv₂)
      obtain rfl : k₁ = k₂ := Nat.le_antisymm hle₁ hle₂
      obtain rfl : v₁ = v₂ := by simpa [Memory.read_cons] using hread k₁ hk₁
      refine congrArg _ (ih m₂ hwf₁ hwf₂ fun i hi => ?_)
      by_cases hik : k₁ = i
      · subst hik
        rw [Memory.read_of_above habove₁, Memory.read_of_above habove₂]
      · simpa [Memory.read_cons, hik] using hread i hi

end Sys2Proof.Machine
end

section
/-! PROOFS. Rules of the whole machine: which event a step takes (20_memory.md R65), the invariants of 10_state.md R40, the
canonical buffers, and which steps write the engine, `busy` and `cmd_lost`. -/

namespace Sys2Proof.Machine

/-! ## Which event is next (R65) -/

theorem step_of_cons {s : State} {e : Event} {rest : List Event} (h : s.events = e :: rest) :
    step s = takeEvent e (s.withEvents rest) := by
  simp only [step, nextEvent, h]

theorem withEvents_own (s : State) : s.withEvents s.events = s := rfl

/-- The engine's turn is taken from the list, or is what is left when the list is empty (log entry 14). -/
theorem step_of_engineIsNext {s : State} (h : s.engineIsNext) : step s = engineTurn (s.withEvents s.events.tail) := by
  obtain hnil | hhead := h
  · have hsame : s.withEvents s.events.tail = s := by rw [hnil, List.tail_nil, ← hnil, withEvents_own]
    rw [hsame]
    simp only [step, nextEvent, hnil]
  · obtain ⟨rest, hrest⟩ := List.head?_eq_some_iff.1 hhead
    rw [step_of_cons hrest, hrest]
    rfl

/-- Settles O3: the step takes the reset, which keeps the four fields of the model's own. -/
theorem resetEventSetsTheWholeRecord : Obligations.ResetEventSetsTheWholeRecord :=
  fun _ _ hev => step_of_cons hev

/-- Settles O10: the engine's turn on a pending command is its step, which ends what the command does. -/
theorem stepRunsTheDecodedCommand : Obligations.StepRunsTheDecodedCommand := by
  intro s t i hbusy hnext hdec hexec
  have hturn : engineTurn (s.withEvents s.events.tail) = engineStep (s.withEvents s.events.tail) :=
    engineTurn_of_busy hbusy
  have hstep : engineStep (s.withEvents s.events.tail) = .next t.clearBusy := engineStep_of_command hdec hexec
  rw [step_of_engineIsNext hnext, hturn, hstep, State.clearBusy]

/-! ## What the engine step can do, as an inversion -/

theorem engineStep_next_cases {s t : State} (h : engineStep s = .next t) :
    (∃ code, code ≠ .ok ∧ t = (s.complete code).clearBusy) ∨
    (∃ r e p, decode s.cmd = .command (.instantiate r e p) ∧ t = (seededState r e p s).clearBusy) ∨
    (∃ e, decode s.cmd = .command (.reseed e) ∧ s.inst = true ∧ t = (reseededState e s).clearBusy) ∨
    (∃ r l, decode s.cmd = .command (.generate r l) ∧ s.inst = true ∧ 8 * l ≤ 7500 ∧ s.ctr.toNat < 10000 ∧
      t = (generateBytes l s).clearBusy) := by
  obtain ⟨u, hu, hcases⟩ := engineStep_cases s
  cases hu.symm.trans h
  exact hcases

/-- The engine step ends a command, which stays in its frame. -/
theorem engineStep_frame {s t : State} (h : engineStep s = .next t) : ∃ u, CommandFrame s u ∧ t = u.clearBusy := by
  obtain ⟨code, -, rfl⟩ | ⟨r, e, p, -, rfl⟩ | ⟨e, -, -, rfl⟩ | ⟨r, l, -, -, -, -, rfl⟩ := engineStep_next_cases h
  · exact ⟨_, complete_frame code s, rfl⟩
  · exact ⟨_, seededState_frame r e p s, rfl⟩
  · exact ⟨_, reseededState_frame e s, rfl⟩
  · exact ⟨_, generateBytes_frame l s, rfl⟩

/-- The engine step never ends an instantiation. -/
theorem engineStep_keeps_inst {s t : State} (h : engineStep s = .next t) (hinst : s.inst = true) : t.inst = true := by
  obtain ⟨code, -, rfl⟩ | ⟨r, e, p, -, rfl⟩ | ⟨e, -, -, rfl⟩ | ⟨r, l, -, -, -, -, rfl⟩ := engineStep_next_cases h
  · exact hinst
  · exact seededState_inst r e p s
  · exact (reseededState_inst e s).trans hinst
  · exact (generateBytes_inst l s).trans hinst

/-! ## Who writes the engine -/

/-- For the engine's fields a step is one of three: it leaves them, it is the engine step on a pending command, or a reset. -/
theorem step_engine_cases {s t : State} (h : step s = .next t) :
    EngineFrame s t ∨
    (s.busy = true ∧ s.engineIsNext ∧ engineStep (s.withEvents s.events.tail) = .next t) ∨
    (s.resetIsNext ∧ t = (s.withEvents s.events.tail).resetBlock) := by
  obtain ⟨-, -, rfl⟩ | ⟨hbusy, hnext, hstep⟩ | ⟨acc, rest, -, hacc⟩ | ⟨rest, hev, rfl⟩ := step_cases h
  · exact .inl (withEvents_engineFrame s _)
  · exact .inr (.inl ⟨hbusy, hnext, hstep⟩)
  · exact .inl ((withEvents_engineFrame s rest).trans (hostAccess_engineFrame hacc))
  · exact .inr (.inr ⟨by rw [State.resetIsNext, hev, List.head?_cons], by rw [hev, List.tail_cons]⟩)

/-- Settles O47: of the three cases, the first. -/
theorem onlyTheEngineOrResetWritesTheEngine : Obligations.OnlyTheEngineOrResetWritesTheEngine := by
  intro s t h hengine hreset
  obtain ⟨hK, hV, hctr, hstrength, hinst, herr, hcount, hbuf⟩ | ⟨hbusy, hnext, -⟩ | ⟨hnext, -⟩ := step_engine_cases h
  · exact ⟨hK, hV, hctr, hstrength, hinst, herr, hcount, hbuf⟩
  · exact absurd ⟨hbusy, hnext⟩ hengine
  · exact absurd hnext hreset

/-- Settles O48: of the engine step's cases only INSTANTIATE's success writes `strength`. -/
theorem strengthIsWrittenOnlyByInstantiate : Obligations.StrengthIsWrittenOnlyByInstantiate := by
  intro s t h hchanged hreset
  obtain hframe | ⟨hbusy, hnext, hstep⟩ | ⟨hnext, -⟩ := step_engine_cases h
  · exact absurd hframe.strength hchanged
  · obtain ⟨code, -, rfl⟩ | ⟨r, e, p, hdec, rfl⟩ | ⟨e, -, -, rfl⟩ | ⟨r, l, -, -, -, -, rfl⟩ := engineStep_next_cases hstep
    · exact absurd rfl hchanged
    · exact ⟨hbusy, hnext, by simp, by simp, r, e, p, hdec, toNat_seededState_strength r e p _⟩
    · exact absurd (reseededState_strength e _) hchanged
    · exact absurd (generateBytes_strength l _) hchanged
  · exact absurd hnext hreset

/-- Settles O28: the regions of a command's outcome, and that no step but a reset clears `inst`. -/
theorem lifecycleFollowsItsTransitions : Obligations.LifecycleFollowsItsTransitions := by
  refine ⟨fun i s => ?_, fun s t h hinst hreset => ?_⟩
  · obtain ⟨t, hexec, hfail, hinstantiate, hreseed, hgenerate⟩ := exec_lifecycle i s
    refine ⟨t, hexec, hfail, hinstantiate, hreseed, hgenerate, ?_⟩
    rintro r l rfl hexhausted hl hr
    exact err_of_exec_generate_exhausted hexec hexhausted hl hr
  · simp only [ne_eq, lifecycle_eq_uninst_iff, Bool.not_eq_false] at hinst ⊢
    obtain hframe | ⟨-, -, hstep⟩ | ⟨hnext, -⟩ := step_engine_cases h
    · exact hframe.inst.trans hinst
    · exact engineStep_keeps_inst hstep hinst
    · exact absurd hnext hreset

/-! ## The invariants (10_state.md R40) -/

/-- R40.1 and R40.3 hold of every state: the digests are 32 bytes by their type, and the engine's turn is idle while
`busy = 0`. What is left are R40.2 and R40.4. -/
theorem inv_iff (s : State) :
    s.Inv ↔
      (s.inst = true → s.strength.toNat ∈ Config.tiers ∧ 1 ≤ s.ctr.toNat ∧ s.ctr.toNat ≤ 10000) ∧ s.outCount.toNat ≤ 937 :=
  ⟨fun h => ⟨fun hinst => ⟨h.tier hinst, h.counter hinst⟩, h.outputCount⟩, fun ⟨hinst, hcount⟩ =>
    ⟨⟨Digest.length_toList s.K, Digest.length_toList s.V⟩, fun hi => (hinst hi).1, fun hi => (hinst hi).2,
      engineTurn_of_idle, hcount⟩⟩

theorem EngineFrame.inv {s t : State} (h : EngineFrame s t) (hinv : s.Inv) : t.Inv := by
  rw [inv_iff] at hinv ⊢
  rwa [h.inst, h.strength, h.ctr, h.outCount]

theorem reset_inv : State.reset.Inv := (inv_iff _).2 ⟨nofun, Nat.zero_le _⟩

theorem resetBlock_engineFrame (s : State) : EngineFrame State.reset s.resetBlock :=
  ⟨rfl, rfl, rfl, rfl, rfl, rfl, rfl, rfl⟩

theorem clearBusy_inv {s : State} (hinv : s.Inv) : s.clearBusy.Inv :=
  EngineFrame.inv (s := s) ⟨rfl, rfl, rfl, rfl, rfl, rfl, rfl, rfl⟩ hinv

theorem complete_inv {s : State} (code : ResultCode) (hinv : s.Inv) : (s.complete code).Inv :=
  (inv_iff _).2 ⟨((inv_iff s).1 hinv).1, Nat.zero_le _⟩

theorem seededState_inv (r e p : Nat) (s : State) : (seededState r e p s).Inv := by
  rw [inv_iff, toNat_seededState_strength, seededState_ctr, seededState_outCount]
  exact ⟨fun _ => ⟨resolve_mem_tiers r, by decide⟩, Nat.zero_le _⟩

theorem reseededState_inv {s : State} (e : Nat) (hinv : s.Inv) (hinst : s.inst = true) : (reseededState e s).Inv := by
  rw [inv_iff, reseededState_strength, reseededState_ctr, reseededState_outCount]
  exact ⟨fun _ => ⟨hinv.tier hinst, by decide⟩, Nat.zero_le _⟩

/-- The ceiling keeps `ctr` at most 10000, and the request's limit of 7500 bits keeps `out_count` at most 937. -/
theorem generateBytes_inv {s : State} {l : Nat} (hinv : s.Inv) (hinst : s.inst = true) (hl : 8 * l ≤ 7500)
    (hctr : s.ctr.toNat < 10000) : (generateBytes l s).Inv := by
  rw [inv_iff, generateBytes_strength, toNat_generateBytes_ctr l hctr, toNat_generateBytes_outCount s hl]
  exact ⟨fun _ => ⟨hinv.tier hinst, by omega, by omega⟩, by omega⟩

theorem engineStep_keeps_inv {s t : State} (h : engineStep s = .next t) (hinv : s.Inv) : t.Inv := by
  obtain ⟨code, -, rfl⟩ | ⟨r, e, p, -, rfl⟩ | ⟨e, -, hinst, rfl⟩ | ⟨r, l, -, hinst, hl, hctr, rfl⟩ :=
    engineStep_next_cases h
  · exact clearBusy_inv (complete_inv code hinv)
  · exact clearBusy_inv (seededState_inv r e p s)
  · exact clearBusy_inv (reseededState_inv e hinv hinst)
  · exact clearBusy_inv (generateBytes_inv hinv hinst hl hctr)

/-- Settles O44: the invariants are about the engine's fields, so only an engine step and a reset can touch them. -/
theorem stepKeepsTheInvariants : Obligations.StepKeepsTheInvariants := by
  intro s t hinv h
  obtain hframe | ⟨-, -, hstep⟩ | ⟨-, rfl⟩ := step_engine_cases h
  · exact hframe.inv hinv
  · exact engineStep_keeps_inv hstep ((withEvents_engineFrame s _).inv hinv)
  · exact (resetBlock_engineFrame _).inv reset_inv

/-! ## The canonical buffers (log entry 9) -/

theorem reset_buffersCanonical : State.reset.buffersCanonical := ⟨Memory.wf_nil 256, Memory.wf_nil 1024⟩

/-- Settles O2: nothing is instantiated, `out_count` is 0 and both listings are empty. -/
theorem resetMeetsTheInvariants : Obligations.ResetMeetsTheInvariants := ⟨reset_inv, reset_buffersCanonical⟩

/-- The output fits: at most 937 of 1024 bytes. -/
theorem wf_generateBytes_outBuf {s : State} {l : Nat} (h : Memory.wf 1024 s.outBuf = true) (hl : 8 * l ≤ 7500) :
    Memory.wf 1024 (generateBytes l s).outBuf = true := by
  rw [generateBytes_eq_blocks]
  exact Memory.wf_writeBytes _ h (by rw [length_take_blockBytes]; omega)

/-- The engine step leaves IN_BUF, and stores to OUT_BUF only a GENERATE's output. -/
theorem engineStep_keeps_buffersCanonical {s t : State} (h : engineStep s = .next t) (hcanon : s.buffersCanonical) :
    t.buffersCanonical := by
  obtain ⟨hin, hout⟩ := hcanon
  have hinBuf : t.inBuf = s.inBuf := by
    obtain ⟨u, hframe, rfl⟩ := engineStep_frame h
    exact hframe.inBuf
  refine ⟨hinBuf ▸ hin, ?_⟩
  obtain ⟨code, -, rfl⟩ | ⟨r, e, p, -, rfl⟩ | ⟨e, -, -, rfl⟩ | ⟨r, l, -, -, hl, -, rfl⟩ := engineStep_next_cases h
  · exact hout
  · rwa [State.clearBusy_outBuf, seededState_outBuf]
  · rwa [State.clearBusy_outBuf, reseededState_outBuf]
  · exact wf_generateBytes_outBuf hout hl

/-- An access stores to IN_BUF at most, and inside it. -/
theorem hostAccess_keeps_buffersCanonical {acc : Access} {s t : State} (h : hostAccess acc s = .next t)
    (hcanon : s.buffersCanonical) : t.buffersCanonical := by
  obtain ⟨hin, hout⟩ := hcanon
  refine ⟨?_, by rwa [(hostAccess_engineFrame h).outBuf]⟩
  obtain ⟨a, n, -, rfl⟩ | ⟨v, -, rfl⟩ | ⟨v, -, rfl⟩ | ⟨a, n, v, -, -, hfits, -, rfl⟩ := hostAccess_effect h
  · rwa [memRead_eq]
  · rwa [State.issue_inBuf]
  · rwa [State.writeStatus_inBuf]
  · exact Memory.wf_writeBytes _ hin (by rwa [length_laneBytes])

/-- Settles O45: each kind of step keeps the form, and a reset empties both buffers. -/
theorem stepKeepsTheBuffersCanonical : Obligations.StepKeepsTheBuffersCanonical := by
  intro s t hcanon h
  obtain ⟨-, -, rfl⟩ | ⟨-, -, hstep⟩ | ⟨acc, rest, -, hacc⟩ | ⟨rest, -, rfl⟩ := step_cases h
  · exact hcanon
  · exact engineStep_keeps_buffersCanonical hstep hcanon
  · exact hostAccess_keeps_buffersCanonical hacc hcanon
  · exact reset_buffersCanonical

/-! ## `busy` (10_state.md R28) -/

theorem hostAccess_cmd_write (s : State) (w : Word) : hostAccess (.write 0x000 4 w) s = .next (s.issue w) := by
  have hok : refused s (.write 0x000 4 w) = none := rfl
  rw [hostAccess_of_not_refused hok]
  rfl

/-- A write at 0x100 or above is neither a CMD nor a STATUS write. -/
theorem write_ne_of_low {a b : Offset} (ha : 0x100 ≤ a.toNat) (hb : b.toNat < 0x100) (n m : Nat) (v w : Word) :
    Access.write a n v ≠ .write b m w := by
  intro hacc
  cases hacc
  omega

theorem hostAccess_busy_iff {acc : Access} {s t : State} (h : hostAccess acc s = .next t) :
    t.busy = true ↔ s.busy = true ∨ ∃ v, acc = .write 0x000 4 v := by
  obtain ⟨a, n, rfl, rfl⟩ | ⟨v, rfl, rfl⟩ | ⟨v, rfl, rfl⟩ | ⟨a, n, v, rfl, ha, -, -, rfl⟩ := hostAccess_effect h
  · simp [memRead_eq]
  · simp
  · simp
  · simp [write_ne_of_low ha]

/-- Settles O49: `busy` after an access is `hostAccess_busy_iff`; the engine and a reset leave it 0. -/
theorem busyFollowsIssueAndCompletion : Obligations.BusyFollowsIssueAndCompletion := by
  intro s t h
  refine ⟨fun hidle => ?_, fun hidle v rest hev => ?_, fun hbusy => ?_⟩
  · obtain ⟨-, hnext, rfl⟩ | ⟨hbusy, -, -⟩ | ⟨acc, rest, hev, hacc⟩ | ⟨rest, hev, rfl⟩ := step_cases h
    · obtain hnil | hhead := hnext
      · simp [hidle, hnil]
      · obtain ⟨rest, hev⟩ := List.head?_eq_some_iff.1 hhead
        simp [hidle, hev]
    · simp [hidle] at hbusy
    · rw [hostAccess_busy_iff hacc]
      simp [hidle, hev]
    · simp [hev, State.reset]
  · rw [step_of_cons hev, takeEvent, hostAccess_cmd_write, State.issue_of_idle (s.withEvents rest) v hidle] at h
    cases h
    rfl
  · obtain ⟨hidle, -, -⟩ | ⟨-, hnext, hstep⟩ | ⟨acc, rest, hev, hacc⟩ | ⟨rest, hev, rfl⟩ := step_cases h
    · simp [hbusy] at hidle
    · obtain ⟨u, -, rfl⟩ := engineStep_frame hstep
      exact iff_of_true rfl (.inl hnext)
    · have hstays : t.busy = true := (hostAccess_busy_iff hacc).2 (.inl hbusy)
      simp [hstays, State.engineIsNext, State.resetIsNext, hev]
    · exact iff_of_true rfl (.inr (by rw [State.resetIsNext, hev, List.head?_cons]))

/-! ## `cmd_lost` (10_state.md R31) -/

theorem hostAccess_cmdLost_iff {acc : Access} {s t : State} (h : hostAccess acc s = .next t) :
    t.cmdLost = true ↔
      (s.busy = true ∧ ∃ v, acc = .write 0x000 4 v) ∨
      (s.cmdLost = true ∧ ¬ ∃ v : Word, acc = .write 0x004 4 v ∧ v.getLsbD 2 = true) := by
  obtain ⟨a, n, rfl, rfl⟩ | ⟨v, rfl, rfl⟩ | ⟨v, rfl, rfl⟩ | ⟨a, n, v, rfl, ha, -, -, rfl⟩ := hostAccess_effect h
  · simp [memRead_eq]
  · cases hbusy : s.busy
    · simp [State.issue_of_idle s v hbusy]
    · simp [State.issue_of_busy s v hbusy]
  · simp
  · simp [write_ne_of_low ha]

/-- Settles O50: `cmd_lost` after an access is `hostAccess_cmdLost_iff`; the engine's turn leaves it. -/
theorem cmdLostIsSticky : Obligations.CmdLostIsSticky := by
  intro s t h hreset
  have hengine : s.engineIsNext → t.cmdLost = s.cmdLost →
      (t.cmdLost = true ↔
        (s.busy = true ∧ ∃ v, s.events.head? = some (.access (.write 0x000 4 v))) ∨
        (s.cmdLost = true ∧ ¬ ∃ v : Word, s.events.head? = some (.access (.write 0x004 4 v)) ∧ v.getLsbD 2 = true)) := by
    rintro (hnil | hhead) hsame
    · simp [hnil, hsame]
    · simp [hhead, hsame]
  obtain ⟨-, hnext, rfl⟩ | ⟨-, hnext, hstep⟩ | ⟨acc, rest, hev, hacc⟩ | ⟨rest, hev, -⟩ := step_cases h
  · exact hengine hnext rfl
  · obtain ⟨u, hframe, rfl⟩ := engineStep_frame hstep
    exact hengine hnext hframe.cmdLost
  · rw [hostAccess_cmdLost_iff hacc]
    simp [hev]
  · exact absurd (by rw [State.resetIsNext, hev, List.head?_cons]) hreset

end Sys2Proof.Machine
end

section
/-! PROOFS. Runs of several steps: a pending command completes (70_reset_and_hazards.md R210), and a command line runs its one
command (30_encoding.md R91, R92). -/

namespace Sys2Proof.Machine

/-! ## Runs -/

theorem runSteps_succ {s t : State} (k : Nat) (h : step s = .next t) : runSteps (k + 1) s = runSteps k t := by
  rw [runSteps, h]

theorem runSteps_one (s : State) : runSteps 1 s = step s := by
  unfold runSteps
  cases step s <;> rfl

/-- A run goes on from where its first part ends. -/
theorem runSteps_add {m : Nat} {s t : State} (n : Nat) (h : runSteps m s = .next t) :
    runSteps (m + n) s = runSteps n t := by
  induction m generalizing s with
  | zero =>
    cases h
    rw [Nat.zero_add]
  | succ m ih =>
    rw [runSteps] at h
    rw [Nat.succ_add, runSteps]
    cases hstep : step s with
    | next u =>
      rw [hstep] at h
      exact ih h
    | fault f => simp [hstep] at h
    | refused r => simp [hstep] at h

/-! ## A pending command completes (R210) -/

/-- With the engine next the next step ends idle. -/
theorem exists_step_idle_of_engineIsNext {s : State} (h : s.engineIsNext) : ∃ t, step s = .next t ∧ t.busy = false := by
  obtain ⟨t, hturn, hidle, -⟩ := engineTurn_next (s.withEvents s.events.tail)
  exact ⟨t, (step_of_engineIsNext h).trans hturn, hidle⟩

/-- An access that the block does not refuse moves to the next event, and while busy it changes `cmd_lost` and the host's
side alone. -/
theorem exists_step_access {s : State} {acc : Access} {rest : List Event} (hbusy : s.busy = true)
    (hev : s.events = .access acc :: rest) (hok : refused (s.withEvents rest) acc = none) :
    ∃ t, step s = .next t ∧ t.events = rest ∧
      t = { s with cmdLost := t.cmdLost, events := t.events, replies := t.replies, draws := t.draws } := by
  have hacc : hostAccess acc (s.withEvents rest) = .next (perform acc (s.withEvents rest)) :=
    hostAccess_of_not_refused hok
  have hevents := hostAccess_events hacc
  refine ⟨_, (step_of_cons hev).trans hacc, hevents, ?_⟩
  rw [hevents]
  exact hostAccess_of_busy (s := s.withEvents rest) hbusy hacc

/-- By induction on the events left: the engine's turn and a reset end the wait, a refused access ends the run, and any other
access leaves fewer events. -/
theorem exists_run_idle_or_fault {s : State} (hbusy : s.busy = true) :
    ∃ k, k ≤ s.events.length + 1 ∧
      ((∃ t, runSteps k s = .next t ∧ t.busy = false) ∨ ∃ f, runSteps k s = .fault f) := by
  induction hev : s.events generalizing s with
  | nil =>
    obtain ⟨t, hstep, hidle⟩ := exists_step_idle_of_engineIsNext (.inl hev)
    exact ⟨1, by simp, .inl ⟨t, by rw [runSteps_one, hstep], hidle⟩⟩
  | cons e rest ih =>
    cases e with
    | engine =>
      obtain ⟨t, hstep, hidle⟩ := exists_step_idle_of_engineIsNext (s := s) (.inr (by rw [hev, List.head?_cons]))
      exact ⟨1, by simp, .inl ⟨t, by rw [runSteps_one, hstep], hidle⟩⟩
    | reset => exact ⟨1, by simp, .inl ⟨_, by rw [runSteps_one, step_of_cons hev, takeEvent], rfl⟩⟩
    | access acc =>
      cases hok : refused (s.withEvents rest) acc with
      | some why =>
        have hstep : step s = .fault (.busError acc why) := by
          rw [step_of_cons hev]
          simp only [takeEvent, hostAccess, hok]
        exact ⟨1, by simp, .inr ⟨_, by rw [runSteps_one, hstep]⟩⟩
      | none =>
        obtain ⟨u, hstep, hrest, hu⟩ := exists_step_access hbusy hev hok
        have hubusy : u.busy = true := by
          rw [hu]
          exact hbusy
        obtain ⟨k, hk, hrun⟩ := ih hubusy hrest
        refine ⟨k + 1, by simpa using hk, ?_⟩
        rwa [runSteps_succ k hstep]

/-- Whether an access is refused depends on `busy` alone. -/
theorem refused_congr {s t : State} (h : t.busy = s.busy) (acc : Access) : refused t acc = refused s acc := by
  cases acc with
  | read a n => rfl
  | write a n v => simp only [refused, h]

/-- The block is as it was but for `cmd_lost` and the host's side: what a pending command waits through. -/
def SamePending (s u : State) : Prop :=
  ∃ lost es rs d, u = { s with cmdLost := lost, events := es, replies := rs, draws := d }

theorem SamePending.trans {s u v : State} : SamePending s u → SamePending u v → SamePending s v := by
  rintro ⟨_, _, _, _, rfl⟩ ⟨lost, es, rs, d, rfl⟩
  exact ⟨lost, es, rs, d, rfl⟩

theorem SamePending.eq {s u : State} :
    SamePending s u → u = { s with cmdLost := u.cmdLost, events := u.events, replies := u.replies, draws := u.draws } := by
  rintro ⟨_, _, _, _, rfl⟩
  rfl

/-- By induction on the events left: with no reset and no refused access among them, every event before the engine's turn is
an access that leaves the command pending. -/
theorem exists_run_to_engine {s : State} (hbusy : s.busy = true) (hreset : .reset ∉ s.events)
    (hok : ∀ acc, .access acc ∈ s.events → refused s acc = none) :
    ∃ k u, k ≤ s.events.length ∧ runSteps k s = .next u ∧ SamePending s u ∧ u.engineIsNext := by
  induction hev : s.events generalizing s with
  | nil => exact ⟨0, s, Nat.zero_le _, rfl, ⟨_, _, _, _, rfl⟩, .inl hev⟩
  | cons e rest ih =>
    rw [hev] at hreset hok
    cases e with
    | engine => exact ⟨0, s, Nat.zero_le _, rfl, ⟨_, _, _, _, rfl⟩, .inr (by rw [hev, List.head?_cons])⟩
    | reset => exact absurd List.mem_cons_self hreset
    | access acc =>
      obtain ⟨t, hstep, hrest, ht⟩ := exists_step_access hbusy hev (hok acc List.mem_cons_self)
      have htbusy : t.busy = s.busy := by rw [ht]
      have htok : ∀ acc', .access acc' ∈ t.events → refused t acc' = none := fun acc' hmem => by
        rw [refused_congr htbusy]
        exact hok acc' (List.mem_cons_of_mem _ (hrest ▸ hmem))
      have htreset : .reset ∉ t.events := fun hmem => hreset (List.mem_cons_of_mem _ (hrest ▸ hmem))
      obtain ⟨k, u, hk, hrun, hsame, hnext⟩ := ih (htbusy.trans hbusy) htreset htok hrest
      exact ⟨k + 1, u, by simpa using hk, by rw [runSteps_succ k hstep, hrun],
        SamePending.trans ⟨_, _, _, _, ht⟩ hsame, hnext⟩

/-- Settles O51: the two inductions on the events left, the second with one more step, the engine's. -/
theorem pendingCommandCompletes : Obligations.PendingCommandCompletes := by
  refine ⟨fun s hbusy => exists_run_idle_or_fault hbusy, fun s hbusy hreset hok => ?_⟩
  obtain ⟨k, u, hk, hrun, hsame, hnext⟩ := exists_run_to_engine hbusy hreset hok
  obtain ⟨t, hturn, hidle, -⟩ := engineTurn_next (u.withEvents u.events.tail)
  have hstep : runSteps (k + 1) s = .next t := by
    rw [runSteps_add 1 hrun, runSteps_one, step_of_engineIsNext hnext, hturn]
  exact ⟨k, u, t, hk, hrun, hsame.eq, hnext, hstep, hidle, hturn⟩

/-! ## A command line (R92) -/

/-- The engine's turn does not depend on the host's side (R169). -/
theorem engineTurn_withHost (s : State) (es : List Event) (rs : List Reply) (d j : Nat) :
    engineTurn (s.withHost es rs d j) = mapNext (fun t => t.withHost es rs d j) (engineTurn s) := by
  cases hbusy : s.busy with
  | false =>
    rw [engineTurn_of_idle hbusy]
    exact engineTurn_of_idle hbusy
  | true =>
    rw [engineTurn_of_busy hbusy, engineTurn_of_busy (s := s.withHost es rs d j) hbusy]
    cases hdec : decode s.cmd with
    | illegal why =>
      rw [engineStep_of_illegal hdec]
      exact engineStep_of_illegal hdec
    | command i =>
      obtain ⟨t, hexec, -⟩ := exec_frame i s
      have hhost : exec i (s.withHost es rs d j) = .next (t.withHost es rs d j) := by
        rw [commandsIgnoreTheHostSide, hexec, mapNext]
      rw [engineStep_of_command hdec hexec]
      exact engineStep_of_command (s := s.withHost es rs d j) hdec hhost

theorem withHost_own_draws {s : State} {d j : Nat} (es : List Event) (rs : List Reply) (hdraws : s.draws = d)
    (hplace : s.place = j) : s.withHost es rs d j = { s with events := es, replies := rs } := by
  rw [← hdraws, ← hplace]
  rfl

/-- An RSTAT event replies with the STATUS value and changes nothing else (20_memory.md R56). -/
theorem step_status_read {s : State} {rest : List Event} (h : s.events = .access (.read 0x004 4) :: rest) :
    step s = .next (s.withHost rest (⟨0x004, 4, s.statusValue⟩ :: s.replies) s.draws s.place) := by
  have hread : hostAccess (.read 0x004 4) (s.withEvents rest) = .next (memRead 0x004 4 (s.withEvents rest)) :=
    hostAccess_read rfl
  have hdraws : readDraws (s.withEvents rest) 0x004 = false := Bool.and_false s.busy
  rw [step_of_cons h, takeEvent, hread, memRead_eq, readValue_status rfl, hdraws]
  rfl

/-- The polls of WAIT: as many replies of one STATUS value. -/
theorem runSteps_status_polls (n : Nat) {s : State} {rest : List Event}
    (h : s.events = List.replicate n (.access (.read 0x004 4)) ++ rest) :
    runSteps n s =
      .next (s.withHost rest (List.replicate n ⟨0x004, 4, s.statusValue⟩ ++ s.replies) s.draws s.place) := by
  induction n generalizing s with
  | zero =>
    obtain rfl : s.events = rest := by simpa using h
    rfl
  | succ n ih =>
    rw [List.replicate_succ, List.cons_append] at h
    rw [runSteps_succ n (step_status_read h), ih rfl, List.replicate_succ', List.append_assoc]
    rfl

/-- WAIT: the polls read the STATUS there was, the engine's turn is the one the block had to take, and the last poll reads
what it left. -/
theorem runSteps_wait (n : Nat) {s u : State} {rest : List Event} (hev : s.events = wait n ++ rest)
    (hturn : engineTurn s = .next u) :
    runSteps (n + 2) s =
      .next (u.withHost rest
        (⟨0x004, 4, u.statusValue⟩ :: (List.replicate n ⟨0x004, 4, s.statusValue⟩ ++ s.replies)) s.draws s.place) := by
  rw [wait, List.append_assoc] at hev
  have hengine (rs : List Reply) :
      step (s.withHost (.engine :: .access (.read 0x004 4) :: rest) rs s.draws s.place) =
        .next (u.withHost (.access (.read 0x004 4) :: rest) rs s.draws s.place) := by
    have hcommutes := engineTurn_withHost s (.access (.read 0x004 4) :: rest) rs s.draws s.place
    rw [hturn, mapNext] at hcommutes
    rw [step_of_cons rfl]
    exact hcommutes
  rw [runSteps_add 2 (runSteps_status_polls n hev)]
  exact (runSteps_succ 1 (hengine _)).trans ((runSteps_one _).trans (step_status_read rfl))

/-- Settles O52: the CMD write is accepted, and WAIT on the accepted command runs it; that its turn is the turn of `pending`,
whose events are the command line still, is R169. -/
theorem commandLineRunsOneCommand : Obligations.CommandLineRunsOneCommand := by
  intro s w latency rest hidle hev pending
  obtain ⟨u, hturn, -, -, -, hdraws, hplace⟩ := engineTurn_next pending
  refine ⟨u, hturn, ?_⟩
  have haccept : step s = .next (pending.withHost (wait latency ++ rest) s.replies s.draws s.place) := by
    rw [step_of_cons (rest := wait latency ++ rest) hev, takeEvent, hostAccess_cmd_write,
      State.issue_of_idle (s.withEvents (wait latency ++ rest)) w hidle]
    rfl
  have hcommutes := engineTurn_withHost pending (wait latency ++ rest) s.replies s.draws s.place
  rw [hturn, mapNext] at hcommutes
  have hwait := runSteps_wait latency (rest := rest) rfl hcommutes
  rw [runSteps_succ (latency + 2) haccept, hwait]
  exact congrArg Host.Outcome.next (withHost_own_draws rest _ hdraws hplace)

end Sys2Proof.Machine
end

section
/-! PROOFS. Several blocks in one system (60_exceptions.md R195): a step and an access reach one of them. -/

namespace Sys2Proof.Machine

/-- What a step of a block that exists does: `step` of its own block, at its own place. -/
theorem System.stepAt_next {sys sys' : System} {j : Nat} {p : Placed} (hp : sys[j]? = some p)
    (h : sys.stepAt j = .next sys') : ∃ t, step (p.block.atPlace j) = .next t ∧ sys' = sys.set j { p with block := t } := by
  unfold System.stepAt at h
  rw [hp] at h
  cases hstep : step (p.block.atPlace j) with
  | next t => exact ⟨t, rfl, by simpa [hstep] using h.symm⟩
  | fault r => simp [hstep] at h
  | refused r => simp [hstep] at h

theorem System.stepAt_of_none {sys : System} {j : Nat} (hp : sys[j]? = none) : sys.stepAt j = .next sys := by
  unfold System.stepAt
  rw [hp]

theorem System.stepAt_keeps_others {sys sys' : System} {j k : Nat} (h : sys.stepAt j = .next sys') (hk : k ≠ j) :
    sys'[k]? = sys[k]? := by
  cases hp : sys[j]? with
  | none =>
    cases (System.stepAt_of_none hp).symm.trans h
    rfl
  | some p =>
    obtain ⟨t, -, rfl⟩ := System.stepAt_next hp h
    exact List.getElem?_set_ne hk.symm

theorem System.isSome_post (sys : System) (addr : Nat) (acc : Access) :
    (sys.post addr acc).isSome = (sys.route addr).isSome := by
  unfold System.post
  cases sys.route addr <;> rfl

/-- An access that a system accepts becomes the next event of the block its address selects. -/
theorem System.post_eq_some {sys sys' : System} {addr : Nat} {acc : Access} (h : sys.post addr acc = some sys') :
    ∃ j p, sys[j]? = some p ∧ p.covers addr = true ∧
      sys' = sys.modify j fun q =>
        { q with block := q.block.withEvents (.access (acc.moved (p.offset addr)) :: q.block.events) } := by
  unfold System.post at h
  cases hroute : sys.route addr with
  | none => simp [hroute] at h
  | some r =>
    obtain ⟨j, a⟩ := r
    obtain ⟨p, hp, hcovers, rfl⟩ := System.route_eq_some hroute
    exact ⟨j, p, hp, hcovers, by simpa [hroute] using h.symm⟩

/-- Settles O53: the step by `stepAt_next`, the routing by `route_isSome`, and the posted event by `post_eq_some`. -/
theorem instancesAreIndependent : Obligations.InstancesAreIndependent := by
  refine ⟨fun sys sys' j h => ⟨fun k hk => System.stepAt_keeps_others h hk, fun p hp => ?_⟩, fun sys addr acc => ?_,
    fun sys sys' addr acc h => ?_⟩
  · obtain ⟨t, hstep, rfl⟩ := System.stepAt_next hp h
    have hj : j < sys.length := (List.getElem?_eq_some_iff.1 hp).1
    exact ⟨t, hstep, step_place hstep, List.getElem?_set_self hj⟩
  · rw [System.isSome_post, System.route_isSome]
    simp only [Placed.covers_iff]
  · obtain ⟨j, p, hp, hcovers, rfl⟩ := System.post_eq_some h
    obtain ⟨hlow, hhigh⟩ := (p.covers_iff addr).1 hcovers
    have hoffset : (p.offset addr).toNat = addr - p.base := Placed.toNat_offset hcovers
    refine ⟨j, p, acc.moved (p.offset addr), hp, hlow, hhigh, ?_, ?_, ?_, fun k hk => ?_⟩
    · rintro a n rfl
      exact ⟨_, hoffset, rfl⟩
    · rintro a n v rfl
      exact ⟨_, hoffset, rfl⟩
    · rw [List.getElem?_modify_eq, hp]
      rfl
    · exact List.getElem?_modify_ne _ _ hk.symm

end Sys2Proof.Machine
end
